-- ==== Sys2Proof/Word.lean ====
section
/-! DEFINITION. The widths of the machine (spec 00_scope.md R7: XLEN = 16, NREGS = 16; R9: bytes and nibbles). -/

namespace Sys2Proof

/-- A 16-bit value: a register, an address, an immediate (00_scope.md R7, XLEN). All values are unsigned (R9). -/
abbrev Word := BitVec 16

/-- The addressable unit of memory (10_state.md R19). -/
abbrev Byte := BitVec 8

/-- A register number, the value of a 4-bit field: every nibble names a register (10_state.md R11). -/
abbrev Reg := Fin 16

end Sys2Proof
end

