-- ==== Sys2Proof/Config.lean ====
section
/-! DEFINITION. What is fixed for one machine and not written by its instructions: the mnemonics, and the parameters
that 00_scope.md R8 leaves open (OPC, the flag bit positions, RX_EOI, TX_WIDE, DIV_CARRY). Their defaults stand in
Decode.lean (OPC) and Machine/Parameters.lean. -/

namespace Sys2Proof

/-- The 44 mnemonics of the opcode table (30_encoding.md R68), in its order: the domain of the parameter OPC. -/
inductive Mnemonic where
  -- control flow (41_control_flow.md)
  | nop | hlt | cmprr | cmpri | jmp | jmz | jnz | jmc
  | jms | call | ret
  -- data movement (42_data_movement.md)
  | movrr | movri | stordr | stormi | stormr | loadrd | loadrm | pushr
  | popr | storbdr | storbmi | storbmr | loadbrd | loadbrm
  -- arithmetic (43_arithmetic.md)
  | addrr | addri | subrr | subri | mulrr | mulri | divrr | divri
  | incr | decr
  -- bitwise (44_bitwise.md)
  | andrr | andri | orrr | orri | xorrr | xorri | not | shr
  | shl
deriving DecidableEq, Repr

/-- The place of a mnemonic in the opcode table, 0 to 43. -/
def Mnemonic.index (m : Mnemonic) : Fin 44 := ⟨m.ctorIdx, by cases m <;> decide⟩

/-- Every mnemonic, in the order of the opcode table (R68). -/
def Mnemonic.all : List Mnemonic :=
  [.nop, .hlt, .cmprr, .cmpri, .jmp, .jmz, .jnz, .jmc, .jms, .call, .ret] ++
  [.movrr, .movri, .stordr, .stormi, .stormr, .loadrd, .loadrm, .pushr, .popr,
   .storbdr, .storbmi, .storbmr, .loadbrd, .loadbrm] ++
  [.addrr, .addri, .subrr, .subri, .mulrr, .mulri, .divrr, .divri, .incr, .decr] ++
  [.andrr, .andri, .orrr, .orri, .xorrr, .xorri, .not, .shr, .shl]

/-- The parameter OPC (00_scope.md R8): the opcode byte of each mnemonic, by `Mnemonic.index`. The spec asks for an
injective map: `OpcodeMap.wellFormed`. -/
abbrev OpcodeMap := Vector Byte 44

/-- The parameters FLAG_Z_BIT, FLAG_C_BIT, FLAG_S_BIT (00_scope.md R8, 10_state.md R14): positions in the flag byte. -/
structure FlagBits where
  zero  : Fin 8
  carry : Fin 8
  sign  : Fin 8
deriving DecidableEq, Repr

/-- The parameter RX_EOI (00_scope.md R8, 20_memory.md R46): what a read of an exhausted console does. -/
inductive RxEoi where
  | block
  | value (v : Word)
deriving DecidableEq, Repr

/-- The parameter TX_WIDE (00_scope.md R8, 20_memory.md R45): what a 16-bit store to TX of a value above 0x00FF does. -/
inductive TxWide where
  | fault
  | truncate
deriving DecidableEq, Repr

/-- The parameters of 00_scope.md R8 that are plain data, one value for a whole run (log entry 1). -/
structure Config where
  opc      : OpcodeMap
  flagBits : FlagBits
  rxEoi    : RxEoi
  txWide   : TxWide
deriving DecidableEq, Repr

/-- FREE VALUE: the parameter DIV_CARRY(a, b, q) (00_scope.md R8, 43_arithmetic.md R143): CARRY after a division of
`a` by `b` with quotient `q`. The spec fixes no value, so it has no body (log entry 3). -/
opaque Config.divCarry : Word → Word → Word → Bool

end Sys2Proof
end

