-- ==== Sys2Proof/Syntax.lean ====
section
/-! DEFINITION. The instructions as syntax: one constructor per row of spec/opcode_table.json, its operands in the
order of the encoding (30_encoding.md R67, R73). -/

namespace Sys2Proof

/-- The 44 instructions (30_encoding.md R67, R68). `reg1` is the high nibble of the register byte, `reg2` the low one,
`imm` the 16-bit immediate: a value or an absolute address, according to the instruction (R66). -/
inductive Instr where
  -- control flow (41_control_flow.md)
  | nop                                     -- R90
  | hlt                                     -- R91
  | cmprr (reg1 reg2 : Reg)                 -- R92
  | cmpri (reg1 : Reg) (imm : Word)         -- R93
  | jmp (imm : Word)                        -- R94
  | jmz (imm : Word)                        -- R95
  | jnz (imm : Word)                        -- R96
  | jmc (imm : Word)                        -- R97
  | jms (imm : Word)                        -- R98
  | call (imm : Word)                       -- R99
  | ret                                     -- R100
  -- data movement (42_data_movement.md)
  | movrr (reg1 reg2 : Reg)                 -- R110
  | movri (reg1 : Reg) (imm : Word)         -- R111
  | stordr (reg1 : Reg) (imm : Word)        -- R112
  | stormi (reg1 : Reg) (imm : Word)        -- R113
  | stormr (reg1 reg2 : Reg)                -- R114
  | loadrd (reg1 : Reg) (imm : Word)        -- R115
  | loadrm (reg1 reg2 : Reg)                -- R116
  | pushr (reg1 : Reg)                      -- R117
  | popr (reg1 : Reg)                       -- R118
  | storbdr (reg1 : Reg) (imm : Word)       -- R120
  | storbmi (reg1 : Reg) (imm : Word)       -- R121
  | storbmr (reg1 reg2 : Reg)               -- R122
  | loadbrd (reg1 : Reg) (imm : Word)       -- R123
  | loadbrm (reg1 reg2 : Reg)               -- R124
  -- arithmetic (43_arithmetic.md)
  | addrr (reg1 reg2 : Reg)                 -- R133
  | addri (reg1 : Reg) (imm : Word)         -- R134
  | subrr (reg1 reg2 : Reg)                 -- R135
  | subri (reg1 : Reg) (imm : Word)         -- R136
  | mulrr (reg1 reg2 : Reg)                 -- R137
  | mulri (reg1 : Reg) (imm : Word)         -- R138
  | divrr (reg1 reg2 : Reg)                 -- R139
  | divri (reg1 : Reg) (imm : Word)         -- R140
  | incr (reg1 : Reg)                       -- R141
  | decr (reg1 : Reg)                       -- R142
  -- bitwise (44_bitwise.md)
  | andrr (reg1 reg2 : Reg)                 -- R151
  | andri (reg1 : Reg) (imm : Word)         -- R152
  | orrr (reg1 reg2 : Reg)                  -- R153
  | orri (reg1 : Reg) (imm : Word)          -- R154
  | xorrr (reg1 reg2 : Reg)                 -- R155
  | xorri (reg1 : Reg) (imm : Word)         -- R156
  | not (reg1 : Reg)                        -- R157
  | shr (reg1 : Reg)                        -- R158
  | shl (reg1 : Reg)                        -- R159
deriving DecidableEq, Repr

end Sys2Proof
end

