-- ==== Sys2Proof/WellFormed.lean ====
section
/-! DEFINITION. What must hold of a machine's parameters and of a program image. An `Instr` needs no check of its own:
a register field is a nibble and every nibble names a register (10_state.md R11), and no immediate is illegal at decode
time (30_encoding.md R70), so every term of `Instr` is well-formed by its operands' types. -/

namespace Sys2Proof

/-- OPC is injective: the 44 bytes differ pairwise (00_scope.md R8). -/
abbrev OpcodeMap.wellFormed (opc : OpcodeMap) : Prop := opc.toList.Nodup

/-- The three flag positions differ (00_scope.md R8). -/
abbrev FlagBits.wellFormed (p : FlagBits) : Prop := p.zero ≠ p.carry ∧ p.zero ≠ p.sign ∧ p.carry ≠ p.sign

/-- The parameters are in their domain (00_scope.md R8). RX_EOI and TX_WIDE have no illegal value. -/
abbrev Config.wellFormed (c : Config) : Prop := c.opc.wellFormed ∧ c.flagBits.wellFormed

/-- An image has at most 65536 bytes; a longer one is rejected (70_reset_and_hazards.md R201). -/
abbrev imageWellFormed (image : List Byte) : Prop := image.length ≤ 65536

end Sys2Proof
end

