-- ==== Sys2Proof/Decode.lean ====
section
/-! DEFINITION. The instruction encoding (30_encoding.md): bytes and words, the opcode table's default bytes and its
formats, the Decoder, total on any list of bytes, and the encoder. -/

namespace Sys2Proof

/-! ## Bytes, nibbles and words (00_scope.md R9) -/

/-- `v[7:0]`. -/
def lowByte (v : Word) : Byte := v.setWidth 8

/-- `v[15:8]`. -/
def highByte (v : Word) : Byte := (v >>> 8).setWidth 8

/-- `{hi, lo}`: the word with `hi` in bits 15:8 and `lo` in bits 7:0. -/
def joinBytes (hi lo : Byte) : Word := BitVec.ofNat 16 (256 * hi.toNat + lo.toNat)

/-- `zext_16(b)`. -/
def zext16 (b : Byte) : Word := b.setWidth 16

/-- `b[7:4]` as a register number (R62). -/
def highNibble (b : Byte) : Reg := ⟨b.toNat / 16, by have := b.isLt; omega⟩

/-- `b[3:0]` as a register number (R63). -/
def lowNibble (b : Byte) : Reg := ⟨b.toNat % 16, by omega⟩

/-- The register byte with `hi` in bits 7:4 and `lo` in bits 3:0 (R63). -/
def registerByte (hi lo : Reg) : Byte := BitVec.ofNat 8 (16 * hi.val + lo.val)

/-! ## Formats (30_encoding.md R60 to R67) -/

/-- The five operand formats (R60). -/
inductive Format where
  | none | reg | regReg | imm | regImm
deriving DecidableEq, Repr

/-- Number of operand bytes of a format (R60). -/
def Format.operandBytes : Format → Nat
  | .none => 0
  | .reg => 1
  | .regReg => 1
  | .imm => 2
  | .regImm => 3

/-- The format of every mnemonic (R67, R68). -/
def Mnemonic.format : Mnemonic → Format
  | .nop | .hlt | .ret => .none
  | .pushr | .popr | .incr | .decr | .not | .shr | .shl => .reg
  | .cmprr | .movrr | .stormr | .loadrm | .storbmr | .loadbrm | .addrr | .subrr
  | .mulrr | .divrr | .andrr | .orrr | .xorrr => .regReg
  | .jmp | .jmz | .jnz | .jmc | .jms | .call => .imm
  | .cmpri | .movri | .stordr | .stormi | .loadrd | .storbdr | .storbmi | .loadbrd
  | .addri | .subri | .mulri | .divri | .andri | .orri | .xorri => .regImm

/-- Length of an instruction in bytes, from its mnemonic alone (R60, R71). -/
def Mnemonic.length (m : Mnemonic) : Nat := 1 + m.format.operandBytes

/-! ## The opcode table (30_encoding.md R68) -/

/-- The default of the parameter OPC: this spec's own assignment (92_eei_decisions.md D1; log entry 1). -/
def defaultOpcode : Mnemonic → Byte
  | .nop => 0x00 | .hlt => 0x01 | .cmprr => 0x02 | .cmpri => 0x03 | .jmp => 0x04
  | .jmz => 0x05 | .jnz => 0x06 | .jmc => 0x07 | .jms => 0x08 | .call => 0x09
  | .ret => 0x0A
  | .movrr => 0x10 | .movri => 0x11 | .stordr => 0x12 | .stormi => 0x13 | .stormr => 0x14
  | .loadrd => 0x15 | .loadrm => 0x16 | .pushr => 0x17 | .popr => 0x18 | .storbdr => 0x19
  | .storbmi => 0x1A | .storbmr => 0x1B | .loadbrd => 0x1C | .loadbrm => 0x1D
  | .addrr => 0x20 | .addri => 0x21 | .subrr => 0x22 | .subri => 0x23 | .mulrr => 0x24
  | .mulri => 0x25 | .divrr => 0x26 | .divri => 0x27 | .incr => 0x28 | .decr => 0x29
  | .andrr => 0x30 | .andri => 0x31 | .orrr => 0x32 | .orri => 0x33 | .xorrr => 0x34
  | .xorri => 0x35 | .not => 0x36 | .shr => 0x37 | .shl => 0x38

/-- The default OPC as a table (R68). -/
def defaultOpcodes : OpcodeMap := ⟨(Mnemonic.all.map defaultOpcode).toArray, by decide⟩

/-- `OPC(m)`. -/
def OpcodeMap.byteOf (opc : OpcodeMap) (m : Mnemonic) : Byte := opc[m.index]

/-- The mnemonic `m` with `OPC(m) == op`, if there is one (R66). -/
def OpcodeMap.mnemonicOf (opc : OpcodeMap) (op : Byte) : Option Mnemonic :=
  Mnemonic.all.find? (fun m => opc.byteOf m == op)

/-! ## Operand fields (30_encoding.md R61 to R66) -/

/-- The decoded fields; those a format does not have are 0 (R66). -/
structure Fields where
  reg1 : Reg  := 0
  reg2 : Reg  := 0
  imm  : Word := 0
deriving DecidableEq, Repr

/-- The fields of the operand bytes of a format, and the bytes after them; `none` where the bytes run out. The low
nibble of the register byte is ignored in the formats REG and REG_IMM (R62, R65). -/
def decodeFields : Format → List Byte → Option (Fields × List Byte)
  | .none,   rest                 => some ({ }, rest)
  | .reg,    b1 :: rest           => some ({ reg1 := highNibble b1 }, rest)
  | .regReg, b1 :: rest           => some ({ reg1 := highNibble b1, reg2 := lowNibble b1 }, rest)
  | .imm,    b1 :: b2 :: rest     => some ({ imm := joinBytes b2 b1 }, rest)
  | .regImm, b1 :: b2 :: b3 :: rest => some ({ reg1 := highNibble b1, imm := joinBytes b3 b2 }, rest)
  | _,       _                    => Option.none

/-- The operand bytes of a format; an ignored nibble is written 0 (R62; log entry 10). -/
def encodeFields : Format → Fields → List Byte
  | .none,   _ => []
  | .reg,    f => [registerByte f.reg1 0]
  | .regReg, f => [registerByte f.reg1 f.reg2]
  | .imm,    f => [lowByte f.imm, highByte f.imm]
  | .regImm, f => [registerByte f.reg1 0, lowByte f.imm, highByte f.imm]

/-- The operand bytes with the ignored nibble cleared (R62, R65). -/
def clearIgnored : Format → List Byte → List Byte
  | .reg,    b1 :: rest => (b1 &&& 0xF0) :: rest
  | .regImm, b1 :: rest => (b1 &&& 0xF0) :: rest
  | _,       bs         => bs

/-- The instruction of a mnemonic with its operands taken from the decoded fields (R67). -/
def instrOf (m : Mnemonic) (f : Fields) : Instr :=
  match m with
  | .nop => .nop
  | .hlt => .hlt
  | .cmprr => .cmprr f.reg1 f.reg2
  | .cmpri => .cmpri f.reg1 f.imm
  | .jmp => .jmp f.imm
  | .jmz => .jmz f.imm
  | .jnz => .jnz f.imm
  | .jmc => .jmc f.imm
  | .jms => .jms f.imm
  | .call => .call f.imm
  | .ret => .ret
  | .movrr => .movrr f.reg1 f.reg2
  | .movri => .movri f.reg1 f.imm
  | .stordr => .stordr f.reg1 f.imm
  | .stormi => .stormi f.reg1 f.imm
  | .stormr => .stormr f.reg1 f.reg2
  | .loadrd => .loadrd f.reg1 f.imm
  | .loadrm => .loadrm f.reg1 f.reg2
  | .pushr => .pushr f.reg1
  | .popr => .popr f.reg1
  | .storbdr => .storbdr f.reg1 f.imm
  | .storbmi => .storbmi f.reg1 f.imm
  | .storbmr => .storbmr f.reg1 f.reg2
  | .loadbrd => .loadbrd f.reg1 f.imm
  | .loadbrm => .loadbrm f.reg1 f.reg2
  | .addrr => .addrr f.reg1 f.reg2
  | .addri => .addri f.reg1 f.imm
  | .subrr => .subrr f.reg1 f.reg2
  | .subri => .subri f.reg1 f.imm
  | .mulrr => .mulrr f.reg1 f.reg2
  | .mulri => .mulri f.reg1 f.imm
  | .divrr => .divrr f.reg1 f.reg2
  | .divri => .divri f.reg1 f.imm
  | .incr => .incr f.reg1
  | .decr => .decr f.reg1
  | .andrr => .andrr f.reg1 f.reg2
  | .andri => .andri f.reg1 f.imm
  | .orrr => .orrr f.reg1 f.reg2
  | .orri => .orri f.reg1 f.imm
  | .xorrr => .xorrr f.reg1 f.reg2
  | .xorri => .xorri f.reg1 f.imm
  | .not => .not f.reg1
  | .shr => .shr f.reg1
  | .shl => .shl f.reg1

/-- The mnemonic of an instruction. -/
def Instr.mnemonic : Instr → Mnemonic
  | .nop => .nop
  | .hlt => .hlt
  | .cmprr .. => .cmprr
  | .cmpri .. => .cmpri
  | .jmp .. => .jmp
  | .jmz .. => .jmz
  | .jnz .. => .jnz
  | .jmc .. => .jmc
  | .jms .. => .jms
  | .call .. => .call
  | .ret => .ret
  | .movrr .. => .movrr
  | .movri .. => .movri
  | .stordr .. => .stordr
  | .stormi .. => .stormi
  | .stormr .. => .stormr
  | .loadrd .. => .loadrd
  | .loadrm .. => .loadrm
  | .pushr .. => .pushr
  | .popr .. => .popr
  | .storbdr .. => .storbdr
  | .storbmi .. => .storbmi
  | .storbmr .. => .storbmr
  | .loadbrd .. => .loadbrd
  | .loadbrm .. => .loadbrm
  | .addrr .. => .addrr
  | .addri .. => .addri
  | .subrr .. => .subrr
  | .subri .. => .subri
  | .mulrr .. => .mulrr
  | .mulri .. => .mulri
  | .divrr .. => .divrr
  | .divri .. => .divri
  | .incr .. => .incr
  | .decr .. => .decr
  | .andrr .. => .andrr
  | .andri .. => .andri
  | .orrr .. => .orrr
  | .orri .. => .orri
  | .xorrr .. => .xorrr
  | .xorri .. => .xorri
  | .not .. => .not
  | .shr .. => .shr
  | .shl .. => .shl

/-- The operand fields of an instruction (R67). -/
def Instr.fields : Instr → Fields
  | .nop | .hlt | .ret => { }
  | .pushr reg1 | .popr reg1 | .incr reg1 | .decr reg1 => { reg1 }
  | .not reg1 | .shr reg1 | .shl reg1 => { reg1 }
  | .cmprr reg1 reg2 | .movrr reg1 reg2 | .stormr reg1 reg2 | .loadrm reg1 reg2 => { reg1, reg2 }
  | .storbmr reg1 reg2 | .loadbrm reg1 reg2 | .addrr reg1 reg2 | .subrr reg1 reg2 => { reg1, reg2 }
  | .mulrr reg1 reg2 | .divrr reg1 reg2 | .andrr reg1 reg2 | .orrr reg1 reg2 => { reg1, reg2 }
  | .xorrr reg1 reg2 => { reg1, reg2 }
  | .jmp imm | .jmz imm | .jnz imm | .jmc imm => { imm }
  | .jms imm | .call imm => { imm }
  | .cmpri reg1 imm | .movri reg1 imm | .stordr reg1 imm | .stormi reg1 imm => { reg1, imm }
  | .loadrd reg1 imm | .storbdr reg1 imm | .storbmi reg1 imm | .loadbrd reg1 imm => { reg1, imm }
  | .addri reg1 imm | .subri reg1 imm | .mulri reg1 imm | .divri reg1 imm => { reg1, imm }
  | .andri reg1 imm | .orri reg1 imm | .xorri reg1 imm => { reg1, imm }

/-- Length of an instruction in bytes (R60). -/
def Instr.length (i : Instr) : Nat := i.mnemonic.length

/-! ## The Decoder and the encoder (30_encoding.md R66) -/

/-- Why a list of bytes is no instruction: the opcode byte has no table entry (R69), or the bytes run out. In a step
the bytes never run out (log entry 12). -/
inductive DecodeError where
  | illegalOpcode (op : Byte)
  | truncated
deriving DecidableEq, Repr

/-- The Decoder on a list of bytes in memory order: the instruction and the bytes after it (R66). -/
def decode (opc : OpcodeMap) : List Byte → Except DecodeError (Instr × List Byte)
  | [] => .error .truncated
  | op :: rest =>
    match opc.mnemonicOf op with
    | none => .error (.illegalOpcode op)
    | some m =>
      match decodeFields m.format rest with
      | none => .error .truncated
      | some (f, rest') => .ok (instrOf m f, rest')

/-- The bytes of an instruction in memory order (R60 to R65). -/
def encode (opc : OpcodeMap) (i : Instr) : List Byte :=
  opc.byteOf i.mnemonic :: encodeFields i.mnemonic.format i.fields

/-- The bytes of an instruction whose bits are `w`, bit 0 the least significant bit of the first byte, laid out in
memory order and padded with zero bytes to the longest instruction, 4 bytes (R60). -/
def tableWordBytes (nbits w : Nat) : List Byte :=
  let v := w % 2 ^ nbits
  [BitVec.ofNat 8 v, BitVec.ofNat 8 (v / 256), BitVec.ofNat 8 (v / 65536), BitVec.ofNat 8 (v / 16777216)]

/-- What the Decoder reads from an instruction written as one number in the opcode table's bit numbering. -/
def decodeTableWord (nbits w : Nat) : Option Instr :=
  match decode defaultOpcodes (tableWordBytes nbits w) with
  | .ok (i, _) => some i
  | .error _ => none

end Sys2Proof
end

