-- ==== Sys2Proof/Machine/Parameters.lean ====
section
/-! DEFINITION. The constants of 00_scope.md R7 and the defaults of the parameters of R8. -/

namespace Sys2Proof.Machine

/-- RAM_START, the RAM boundary: program space is `addr < ramStart` (R7). -/
def ramStart : Word := 0x4000

/-- STACK_BASE: reset value of SP, the empty-stack value (R7). -/
def stackBase : Word := 0xDEFF

/-- IO_RX, the console input port (R7). -/
def ioRx : Word := 0xFF00

/-- IO_TX, the console output port (R7). -/
def ioTx : Word := 0xFF01

/-- The last address, where a 16-bit access has no second byte (20_memory.md R41). -/
def lastAddress : Word := 0xFFFF

/-- FLAG_Z_BIT, FLAG_C_BIT, FLAG_S_BIT at their defaults (R8). -/
def defaultFlagBits : FlagBits := { zero := 0, carry := 1, sign := 2 }

/-- Every parameter at the default of R8 (log entry 1). -/
def defaultConfig : Config :=
  { opc := defaultOpcodes, flagBits := defaultFlagBits, rxEoi := .block, txWide := .fault }

end Sys2Proof.Machine
end

