-- ==== Sys2Proof/Machine/State.lean ====
section
/-! DEFINITION. The whole state of the machine as plain data (10_state.md R25), the reasons of a fault (60_exceptions.md
R170), and the state after reset (10_state.md R22). -/

namespace Sys2Proof.Machine

/-- The sub-kinds of StackFault (60_exceptions.md R170, R174, R175). -/
inductive StackFaultKind where
  | underflow
  | guard
  | overflow
deriving DecidableEq, Repr

/-- The seven faults of the spec with the information each records (60_exceptions.md R170). They are part of the state
a faulted machine is left in (10_state.md R17), not outcomes of the model's step. -/
inductive FaultReason where
  /-- The opcode byte at `addr` has no table entry (R171). -/
  | decode (addr : Word) (op : Byte)
  /-- `pc` at or above the RAM boundary before a fetch or after an instruction (R172). -/
  | bounds (pc : Word)
  /-- A store's EA is below the RAM boundary (R173). -/
  | writeProtect (ea : Word)
  /-- A push or pop outside the stack's bounds (R174, R175). -/
  | stack (kind : StackFaultKind) (sp : Word)
  /-- Division by zero; it carries nothing (R176, 90_conflicts.md C8). -/
  | arithmetic
  /-- A 16-bit data access at 0xFFFF (R177, 20_memory.md R41). -/
  | address (ea : Word)
  /-- A 16-bit store to TX of a value above 0x00FF with TX_WIDE = fault (R177, 20_memory.md R45). -/
  | io (ea : Word) (value : Word)
deriving DecidableEq, Repr

/-- The run status (10_state.md R16, R17). -/
inductive RunStatus where
  | running
  | halted
  | faulted (reason : FaultReason)
deriving DecidableEq, Repr

/-- Why NO STEP EXISTS from a state. These are not the spec's faults, which are next states (log entries 4 and 5). -/
inductive Fault where
  /-- Raised by `step` on a HALTED state: no step exists (40_run_loop.md R85). Safe: the machine stands still. -/
  | halted
  /-- Raised by `step` on a FAULTED state: no step exists (40_run_loop.md R85). Safe: the machine stands still. -/
  | faulted (reason : FaultReason)
  /-- Raised by a load of RX with the console input exhausted and RX_EOI = block: the load never completes
  (20_memory.md R46). Safe: the machine is stuck. -/
  | consoleBlocked
deriving DecidableEq, Repr

/-- Instructions without a meaning. -/
inductive Refusal where
  /-- Raised by `exec` for an instruction that has no meaning yet; every instruction has one, so nothing raises it.
  Safe. -/
  | notModelled (mnemonic : String)
deriving DecidableEq, Repr

/-- The bytes of memory that differ from 0x00, by address (10_state.md R19). Canonical form: `Memory.wf`. -/
abbrev Memory := List Host.Cell

/-- The state tuple of 10_state.md R25, then the two parameters of the step that a run carries along
(00_scope.md R6, R8; log entries 1 and 2). -/
structure State where
  /-- The general registers (R10). -/
  x         : Vector Word 16
  /-- The program counter (R12). -/
  pc        : Word
  /-- The stack pointer (R13). -/
  sp        : Word
  /-- The flag byte (R14). -/
  flags     : Byte
  /-- The memory `M` (R19). -/
  mem       : Memory
  /-- The run status with its reason (R16, R17). -/
  run       : RunStatus
  /-- The console output so far, oldest byte first (R20). -/
  out       : List Byte
  /-- How many bytes of the console input have been consumed (R21). -/
  inPos     : Nat
  /-- The parameter CONSOLE_IN (00_scope.md R8); no step changes it. -/
  consoleIn : List Byte
  /-- The parameters OPC, flag positions, RX_EOI, TX_WIDE (00_scope.md R8); no step changes them. -/
  cfg       : Config
deriving DecidableEq, Repr

/-- The state right after reset, with the empty image (10_state.md R22, 70_reset_and_hazards.md R200) and no console
input (log entries 2 and 6). -/
def State.reset : State :=
  { x := Vector.replicate 16 0, pc := 0, sp := stackBase, flags := 0, mem := [], run := .running, out := [],
    inPos := 0, consoleIn := [], cfg := defaultConfig }

end Sys2Proof.Machine
end

