-- ==== Sys2Proof/Machine/Ops.lean ====
section
/-! DEFINITION. The named operations over registers and memory: the primitives of 00_scope.md R24, the load and store
paths, the console and the stack (20_memory.md), raising a fault (60_exceptions.md R183), and what the run loop does
around an instruction (40_run_loop.md). -/

namespace Sys2Proof.Machine

/-! ## Registers (00_scope.md R24) -/

/-- `x[r]`. -/
def State.reg (s : State) (r : Reg) : Word := s.x[r]

/-- `x[r] <- v`. -/
def State.setReg (s : State) (r : Reg) (v : Word) : State := { s with x := s.x.set r v }

/-- `pc <- v`. -/
def State.setPc (s : State) (v : Word) : State := { s with pc := v }

/-- `sp <- v`. -/
def State.setSp (s : State) (v : Word) : State := { s with sp := v }

/-- `flags <- v`. -/
def State.setFlags (s : State) (v : Byte) : State := { s with flags := v }

/-! ## Raising a fault, and halting

There is no return from a fault and no nesting (60_exceptions.md R185), so no operation undoes `raise`. -/

/-- `raise F(info)`: the run status becomes FAULTED with the reason, and nothing else changes (60_exceptions.md R183). -/
def raise (r : FaultReason) (s : State) : State := { s with run := .faulted r }

/-- `halt`: the run status becomes HALTED, and nothing else changes (41_control_flow.md R91). -/
def halt (s : State) : State := { s with run := .halted }

/-! ## The byte array -/

/-- What an address reads as that the memory does not list: memory is zeroed at reset (10_state.md R22). -/
def Memory.unlisted : Byte := 0

/-- The canonical form: addresses strictly rising and within the address space, no cell equal to what an unlisted
address reads as. -/
abbrev Memory.wf (m : Memory) : Prop :=
  m.Pairwise (fun c d => c.1 < d.1) ∧ ∀ c ∈ m, c.1 < 65536 ∧ c.2 ≠ Memory.unlisted

/-- The byte at an address. -/
def Memory.read : Memory → Nat → Byte
  | [], _ => Memory.unlisted
  | c :: m, a => if c.1 = a then c.2 else Memory.read m a

/-- A cell put at its place in a memory that does not list its address. -/
def Memory.insertCell (c : Host.Cell) : Memory → Memory
  | [] => [c]
  | d :: m => if c.1 < d.1 then c :: d :: m else d :: Memory.insertCell c m

/-- The memory with the byte at an address replaced, in canonical form. -/
def Memory.write (m : Memory) (a : Nat) (b : Byte) : Memory :=
  let rest := m.filter (fun c => c.1 != a)
  if b = Memory.unlisted then rest else Memory.insertCell (a, b) rest

/-- Bytes written at consecutive addresses from `a` on. -/
def Memory.writeBytes : Memory → Nat → List Byte → Memory
  | m, _, [] => m
  | m, a, b :: bs => Memory.writeBytes (Memory.write m a b) (a + 1) bs

/-- `M[a]`. -/
def State.readByte (s : State) (a : Word) : Byte := Memory.read s.mem a.toNat

/-- `M[a] <- b`. -/
def State.writeByte (s : State) (a : Word) (b : Byte) : State := { s with mem := Memory.write s.mem a.toNat b }

/-- The two access widths of data (20_memory.md R34). -/
inductive Width where
  | byte
  | word
deriving DecidableEq, Repr

/-- `MemRead(addr, n)`: little-endian (20_memory.md R31). Callers guarantee that the second byte exists. -/
def memRead (a : Word) (w : Width) (s : State) : Word :=
  match w with
  | .byte => zext16 (s.readByte a)
  | .word => joinBytes (s.readByte (a + 1)) (s.readByte a)

/-- `MemWrite(addr, n, v)`: little-endian (20_memory.md R31). Callers guarantee that the second byte exists. -/
def memWrite (a : Word) (w : Width) (v : Word) (s : State) : State :=
  match w with
  | .byte => s.writeByte a (lowByte v)
  | .word => (s.writeByte a (lowByte v)).writeByte (a + 1) (highByte v)

/-! ## What an access answers -/

/-- What a primitive that reads or writes memory or the console answers: it is done, with a value and the state after
it; or it raises a fault, before any write (20_memory.md R43); or it waits for console input (R46). -/
inductive Access (α : Type) where
  | done (v : α) (s : State)
  | raised (r : FaultReason)
  | blocked
deriving Repr

/-- An instruction's end after an access made from state `s`: its last effect `k`, or the fault raised from `s`, or no
step (20_memory.md R46; log entry 5). -/
def Access.finish {α : Type} (s : State) (k : α → State → State) : Access α → Host.Outcome State Fault Refusal
  | .done v t => .next (k v t)
  | .raised r => .next (raise r s)
  | .blocked  => .fault .consoleBlocked

/-! ## The console (20_memory.md R46, R47) -/

/-- `ConsoleRead()`, its byte zero-extended; at the end of the input, what RX_EOI says (R44, R46). -/
def consoleRead (s : State) : Access Word :=
  match s.consoleIn[s.inPos]? with
  | some b => .done (zext16 b) { s with inPos := s.inPos + 1 }
  | none =>
    match s.cfg.rxEoi with
    | .block   => .blocked
    | .value v => .done v s

/-- `ConsoleWrite(b)` (R47). -/
def consoleWrite (b : Byte) (s : State) : State := { s with out := s.out ++ [b] }

/-! ## The load and store paths (20_memory.md R42, R43) -/

/-- `DataLoad(addr, n)` (R42). -/
def dataLoad (a : Word) (w : Width) (s : State) : Access Word :=
  if a = ioRx then consoleRead s
  else if w = .word ∧ a = lastAddress then .raised (.address a)
  else .done (memRead a w s) s

/-- `DataStore(addr, n, v)` (R43). -/
def dataStore (a : Word) (w : Width) (v : Word) (s : State) : Access Unit :=
  if a < ramStart then .raised (.writeProtect a)
  else if a = ioTx then
    if w = .word ∧ 0x00FF < v ∧ s.cfg.txWide = .fault then .raised (.io a v)
    else .done () (consoleWrite (lowByte v) s)
  else if w = .word ∧ a = lastAddress then .raised (.address a)
  else .done () (memWrite a w v s)

/-! ## The stack (20_memory.md R49 to R51) -/

/-- `Push16(v)` (R50): the low byte at SP, the high byte below it. -/
def push16 (v : Word) (s : State) : Access Unit :=
  if stackBase < s.sp then .raised (.stack .guard s.sp)
  else if s.sp ≤ ramStart then .raised (.stack .overflow s.sp)
  else .done () (((s.writeByte s.sp (lowByte v)).writeByte (s.sp - 1) (highByte v)).setSp (s.sp - 2))

/-- `Pop16()` (R51). -/
def pop16 (s : State) : Access Word :=
  if stackBase ≤ s.sp then .raised (.stack .underflow s.sp)
  else .done (joinBytes (s.readByte (s.sp + 1)) (s.readByte (s.sp + 2))) (s.setSp (s.sp + 2))

/-! ## Around an instruction (40_run_loop.md) -/

/-- The four bytes from PC on: the longest instruction. Reading them has no side effect (20_memory.md R36), so reading
more of them than the instruction has is not observable (log entry 7). -/
def fetchBytes (s : State) : List Byte :=
  [s.readByte s.pc, s.readByte (s.pc + 1), s.readByte (s.pc + 2), s.readByte (s.pc + 3)]

/-- A DecodeFault at PC: the opcode byte is consumed, and nothing else changes (R82, 60_exceptions.md R184). -/
def decodeFault (s : State) : State := raise (.decode s.pc (s.readByte s.pc)) (s.setPc (s.pc + 1))

/-- The Decoder's advance of PC past an instruction: the Executor sees the fall-through address (30_encoding.md R66). -/
def advance (i : Instr) (s : State) : State := s.setPc (s.pc + BitVec.ofNat 16 i.length)

/-- The bounds check after an instruction that completed normally, one that neither halted nor faulted (R84, R87). -/
def boundsCheck (t : State) : State :=
  if t.run = .running ∧ ramStart ≤ t.pc then raise (.bounds t.pc) t else t

/-- The bounds check on what the Executor answers. -/
def afterInstruction : Host.Outcome State Fault Refusal → Host.Outcome State Fault Refusal
  | .next t    => .next (boundsCheck t)
  | .fault r   => .fault r
  | .refused r => .refused r

/-! ## Outside the core -/

/-- The Loader (70_reset_and_hazards.md R201): the image copied to address 0, past the write guard and the I/O trap; a
longer image than memory is rejected (log entry 9). -/
def loadImage (image : List Byte) (s : State) : Option State :=
  if imageWellFormed image then some { s with mem := Memory.writeBytes s.mem 0 image } else none

/-- The console supplies more input (60_exceptions.md R193; log entry 2). -/
def deliverInput (bytes : List Byte) (s : State) : State := { s with consoleIn := s.consoleIn ++ bytes }

end Sys2Proof.Machine
end

