-- ==== Sys2Proof/Machine/Operands.lean ====
section
/-! DEFINITION. The operand forms: where an instruction takes a value or an address from (30_encoding.md R67, R75;
43_arithmetic.md R132). All sources are read from the state before any write (10_state.md R11). -/

namespace Sys2Proof.Machine

/-- A source operand: the suffix letters R and M name a register, I and D an immediate (R75). -/
inductive Operand where
  /-- The value of a register, or an address held in it. -/
  | register (r : Reg)
  /-- The immediate itself, as a value or as an absolute address, neither extended nor scaled (R66); or the literal 1
  of INCR and DECR (R132). -/
  | immediate (v : Word)
deriving DecidableEq, Repr

/-- The 16 bits an operand stands for. -/
def Operand.value (o : Operand) (s : State) : Word :=
  match o with
  | .register r  => s.reg r
  | .immediate v => v

/-- A load into register `d` from the address that `ea` stands for (42_data_movement.md R125). -/
def loadInto (d : Reg) (ea : Operand) (w : Width) (s : State) : Host.Outcome State Fault Refusal :=
  (dataLoad (ea.value s) w s).finish s (fun v t => t.setReg d v)

/-- A store of `v` at the address that `ea` stands for (42_data_movement.md R125). -/
def storeAt (ea : Operand) (w : Width) (v : Operand) (s : State) : Host.Outcome State Fault Refusal :=
  (dataStore (ea.value s) w (v.value s) s).finish s (fun _ t => t)

end Sys2Proof.Machine
end

