-- ==== Sys2Proof/Machine/Flags.lean ====
section
/-! DEFINITION. The flag byte (10_state.md R14) and the Flag Unit (43_arithmetic.md R129 to R131, R143): each function
gives a whole flag byte from the operands and the result alone, never from the old flags. -/

namespace Sys2Proof.Machine

/-- A byte with bit `k` set where `b` holds and no other bit. -/
def flagBit (k : Fin 8) (b : Bool) : Byte := if b then 1 <<< k.val else 0

/-- The flag byte: all bits cleared, then the three flags set selectively (R14, R129). -/
def flagByte (p : FlagBits) (z c s : Bool) : Byte := flagBit p.zero z ||| flagBit p.carry c ||| flagBit p.sign s

/-- `Z`. -/
def State.flagZ (s : State) : Bool := s.flags.getLsbD s.cfg.flagBits.zero

/-- `C`. -/
def State.flagC (s : State) : Bool := s.flags.getLsbD s.cfg.flagBits.carry

/-- `S`. -/
def State.flagS (s : State) : Bool := s.flags.getLsbD s.cfg.flagBits.sign

/-- `FlagsAdd(a, b, r)`: the additive family, ADD, MUL and INC (R130). -/
def flagsAdd (p : FlagBits) (a b r : Word) : Byte :=
  flagByte p (r == 0) (decide (r < a) || decide (r < b)) (r.getLsbD 15)

/-- `FlagsSub(a, b, r)`: the subtractive family, SUB, DEC and CMP (R131). -/
def flagsSub (p : FlagBits) (a b r : Word) : Byte :=
  flagByte p (r == 0) (decide (a < b)) (r.getLsbD 15)

/-- `FlagsDiv(a, b, q)`: CARRY is the free value `Config.divCarry` (R143; log entry 3). -/
def flagsDiv (p : FlagBits) (a b q : Word) : Byte :=
  flagByte p (q == 0) (Config.divCarry a b q) (q.getLsbD 15)

end Sys2Proof.Machine
end

