-- ==== Sys2Proof/Machine/Arithmetic.lean ====
section
/-! DEFINITION. The arithmetic group (43_arithmetic.md): 16-bit unsigned, wrapping, the destination and left operand in
`reg1`, all three flags rewritten (R132). -/

namespace Sys2Proof.Machine

/-- ADD of `b` to a register (R133). -/
def addTo (d : Reg) (b : Word) (s : State) : Host.Outcome State Fault Refusal :=
  let a := s.reg d
  let r := a + b
  .next ((s.setReg d r).setFlags (flagsAdd s.cfg.flagBits a b r))

/-- SUB of `b` from a register (R135). -/
def subFrom (d : Reg) (b : Word) (s : State) : Host.Outcome State Fault Refusal :=
  let a := s.reg d
  let r := a - b
  .next ((s.setReg d r).setFlags (flagsSub s.cfg.flagBits a b r))

/-- MUL of a register by `b`: the low 16 bits of the product, flags by the additive rule (R137). -/
def mulBy (d : Reg) (b : Word) (s : State) : Host.Outcome State Fault Refusal :=
  let a := s.reg d
  let r := a * b
  .next ((s.setReg d r).setFlags (flagsAdd s.cfg.flagBits a b r))

/-- DIV of a register by `b`: unsigned, rounded toward zero; ArithmeticFault where `b` is 0 (R139). -/
def divBy (d : Reg) (b : Word) (s : State) : Host.Outcome State Fault Refusal :=
  let a := s.reg d
  let q := a / b
  if b = 0 then .next (raise .arithmetic s)
  else .next ((s.setReg d q).setFlags (flagsDiv s.cfg.flagBits a b q))

/-- ADDRR (R133). -/
def execAddrr (reg1 reg2 : Reg) (s : State) : Host.Outcome State Fault Refusal :=
  addTo reg1 ((Operand.register reg2).value s) s

/-- ADDRI (R134). -/
def execAddri (reg1 : Reg) (imm : Word) (s : State) : Host.Outcome State Fault Refusal :=
  addTo reg1 ((Operand.immediate imm).value s) s

/-- SUBRR (R135). -/
def execSubrr (reg1 reg2 : Reg) (s : State) : Host.Outcome State Fault Refusal :=
  subFrom reg1 ((Operand.register reg2).value s) s

/-- SUBRI (R136). -/
def execSubri (reg1 : Reg) (imm : Word) (s : State) : Host.Outcome State Fault Refusal :=
  subFrom reg1 ((Operand.immediate imm).value s) s

/-- MULRR (R137). -/
def execMulrr (reg1 reg2 : Reg) (s : State) : Host.Outcome State Fault Refusal :=
  mulBy reg1 ((Operand.register reg2).value s) s

/-- MULRI (R138). -/
def execMulri (reg1 : Reg) (imm : Word) (s : State) : Host.Outcome State Fault Refusal :=
  mulBy reg1 ((Operand.immediate imm).value s) s

/-- DIVRR (R139). -/
def execDivrr (reg1 reg2 : Reg) (s : State) : Host.Outcome State Fault Refusal :=
  divBy reg1 ((Operand.register reg2).value s) s

/-- DIVRI (R140). -/
def execDivri (reg1 : Reg) (imm : Word) (s : State) : Host.Outcome State Fault Refusal :=
  divBy reg1 ((Operand.immediate imm).value s) s

/-- INCR: ADD of the literal 1 to the register's value (R141). -/
def execIncr (reg1 : Reg) (s : State) : Host.Outcome State Fault Refusal :=
  addTo reg1 ((Operand.immediate 1).value s) s

/-- DECR: SUB of the literal 1 from the register's value (R142). -/
def execDecr (reg1 : Reg) (s : State) : Host.Outcome State Fault Refusal :=
  subFrom reg1 ((Operand.immediate 1).value s) s

end Sys2Proof.Machine
end

