-- ==== Sys2Proof/Machine/Bitwise.lean ====
section
/-! DEFINITION. The bitwise group (44_bitwise.md): bit by bit on 16 bits, the destination in `reg1`, no flag written and
no fault (R150). -/

namespace Sys2Proof.Machine

/-- ANDRR (R151). -/
def execAndrr (reg1 reg2 : Reg) (s : State) : Host.Outcome State Fault Refusal :=
  .next (s.setReg reg1 (s.reg reg1 &&& (Operand.register reg2).value s))

/-- ANDRI (R152). -/
def execAndri (reg1 : Reg) (imm : Word) (s : State) : Host.Outcome State Fault Refusal :=
  .next (s.setReg reg1 (s.reg reg1 &&& (Operand.immediate imm).value s))

/-- ORRR (R153). -/
def execOrrr (reg1 reg2 : Reg) (s : State) : Host.Outcome State Fault Refusal :=
  .next (s.setReg reg1 (s.reg reg1 ||| (Operand.register reg2).value s))

/-- ORRI (R154). -/
def execOrri (reg1 : Reg) (imm : Word) (s : State) : Host.Outcome State Fault Refusal :=
  .next (s.setReg reg1 (s.reg reg1 ||| (Operand.immediate imm).value s))

/-- XORRR (R155). -/
def execXorrr (reg1 reg2 : Reg) (s : State) : Host.Outcome State Fault Refusal :=
  .next (s.setReg reg1 (s.reg reg1 ^^^ (Operand.register reg2).value s))

/-- XORRI (R156). -/
def execXorri (reg1 : Reg) (imm : Word) (s : State) : Host.Outcome State Fault Refusal :=
  .next (s.setReg reg1 (s.reg reg1 ^^^ (Operand.immediate imm).value s))

/-- NOT: the 16-bit one's complement (R157). -/
def execNot (reg1 : Reg) (s : State) : Host.Outcome State Fault Refusal :=
  .next (s.setReg reg1 (~~~ (s.reg reg1)))

/-- SHR: a logical shift right by exactly one bit; the bit shifted out is lost (R158). -/
def execShr (reg1 : Reg) (s : State) : Host.Outcome State Fault Refusal :=
  .next (s.setReg reg1 (s.reg reg1 >>> 1))

/-- SHL: a logical shift left by exactly one bit; the bit shifted out is lost (R159). -/
def execShl (reg1 : Reg) (s : State) : Host.Outcome State Fault Refusal :=
  .next (s.setReg reg1 (s.reg reg1 <<< 1))

end Sys2Proof.Machine
end

