-- ==== Sys2Proof/Machine/ControlFlow.lean ====
section
/-! DEFINITION. The control-flow group (41_control_flow.md): NOP, HLT, the compares, the jumps, CALL and RET. Every
meaning starts from the fall-through address in `pc`. -/

namespace Sys2Proof.Machine

/-- The compare: the flags of a subtraction, its result discarded (R92, R93). -/
def compare (a b : Word) (s : State) : Host.Outcome State Fault Refusal :=
  .next (s.setFlags (flagsSub s.cfg.flagBits a b (a - b)))

/-- A jump to an absolute target where `taken` holds; otherwise no effect (R94 to R98, R101). -/
def jumpIf (taken : Bool) (target : Word) (s : State) : Host.Outcome State Fault Refusal :=
  .next (if taken then s.setPc target else s)

/-- NOP (R90). -/
def execNop (s : State) : Host.Outcome State Fault Refusal := .next s

/-- HLT (R91). -/
def execHlt (s : State) : Host.Outcome State Fault Refusal := .next (halt s)

/-- CMPRR (R92). -/
def execCmprr (reg1 reg2 : Reg) (s : State) : Host.Outcome State Fault Refusal :=
  compare (s.reg reg1) ((Operand.register reg2).value s) s

/-- CMPRI (R93). -/
def execCmpri (reg1 : Reg) (imm : Word) (s : State) : Host.Outcome State Fault Refusal :=
  compare (s.reg reg1) ((Operand.immediate imm).value s) s

/-- JMP (R94). -/
def execJmp (imm : Word) (s : State) : Host.Outcome State Fault Refusal := jumpIf true imm s

/-- JMZ (R95). -/
def execJmz (imm : Word) (s : State) : Host.Outcome State Fault Refusal := jumpIf s.flagZ imm s

/-- JNZ (R96). -/
def execJnz (imm : Word) (s : State) : Host.Outcome State Fault Refusal := jumpIf (!s.flagZ) imm s

/-- JMC (R97). -/
def execJmc (imm : Word) (s : State) : Host.Outcome State Fault Refusal := jumpIf s.flagC imm s

/-- JMS (R98). -/
def execJms (imm : Word) (s : State) : Host.Outcome State Fault Refusal := jumpIf s.flagS imm s

/-- CALL (R99): the pushed value is `pc`, the address of the instruction after CALL. -/
def execCall (imm : Word) (s : State) : Host.Outcome State Fault Refusal :=
  (push16 s.pc s).finish s (fun _ t => t.setPc imm)

/-- RET (R100). -/
def execRet (s : State) : Host.Outcome State Fault Refusal :=
  (pop16 s).finish s (fun v t => t.setPc v)

end Sys2Proof.Machine
end

