-- ==== Sys2Proof/Machine/DataMovement.lean ====
section
/-! DEFINITION. The data-movement group (42_data_movement.md): moves, stores, loads, push and pop. No flag is written
and no address register changes (R125). -/

namespace Sys2Proof.Machine

/-- MOVRR (R110). -/
def execMovrr (reg1 reg2 : Reg) (s : State) : Host.Outcome State Fault Refusal :=
  .next (s.setReg reg1 ((Operand.register reg2).value s))

/-- MOVRI (R111). -/
def execMovri (reg1 : Reg) (imm : Word) (s : State) : Host.Outcome State Fault Refusal :=
  .next (s.setReg reg1 ((Operand.immediate imm).value s))

/-- STORDR (R112): `DataStore(imm, 2, x[reg1])`. -/
def execStordr (reg1 : Reg) (imm : Word) (s : State) : Host.Outcome State Fault Refusal :=
  storeAt (.immediate imm) .word (.register reg1) s

/-- STORMI (R113): `DataStore(x[reg1], 2, imm)`. -/
def execStormi (reg1 : Reg) (imm : Word) (s : State) : Host.Outcome State Fault Refusal :=
  storeAt (.register reg1) .word (.immediate imm) s

/-- STORMR (R114): `DataStore(x[reg1], 2, x[reg2])`. -/
def execStormr (reg1 reg2 : Reg) (s : State) : Host.Outcome State Fault Refusal :=
  storeAt (.register reg1) .word (.register reg2) s

/-- LOADRD (R115): `x[reg1] <- DataLoad(imm, 2)`. -/
def execLoadrd (reg1 : Reg) (imm : Word) (s : State) : Host.Outcome State Fault Refusal :=
  loadInto reg1 (.immediate imm) .word s

/-- LOADRM (R116): `x[reg1] <- DataLoad(x[reg2], 2)`. -/
def execLoadrm (reg1 reg2 : Reg) (s : State) : Host.Outcome State Fault Refusal :=
  loadInto reg1 (.register reg2) .word s

/-- PUSHR (R117). -/
def execPushr (reg1 : Reg) (s : State) : Host.Outcome State Fault Refusal :=
  (push16 (s.reg reg1) s).finish s (fun _ t => t)

/-- POPR (R118). -/
def execPopr (reg1 : Reg) (s : State) : Host.Outcome State Fault Refusal :=
  (pop16 s).finish s (fun v t => t.setReg reg1 v)

/-- STORBDR (R120): `DataStore(imm, 1, x[reg1])`. -/
def execStorbdr (reg1 : Reg) (imm : Word) (s : State) : Host.Outcome State Fault Refusal :=
  storeAt (.immediate imm) .byte (.register reg1) s

/-- STORBMI (R121): `DataStore(x[reg1], 1, imm)`. -/
def execStorbmi (reg1 : Reg) (imm : Word) (s : State) : Host.Outcome State Fault Refusal :=
  storeAt (.register reg1) .byte (.immediate imm) s

/-- STORBMR (R122): `DataStore(x[reg1], 1, x[reg2])`. -/
def execStorbmr (reg1 reg2 : Reg) (s : State) : Host.Outcome State Fault Refusal :=
  storeAt (.register reg1) .byte (.register reg2) s

/-- LOADBRD (R123): `x[reg1] <- DataLoad(imm, 1)`. -/
def execLoadbrd (reg1 : Reg) (imm : Word) (s : State) : Host.Outcome State Fault Refusal :=
  loadInto reg1 (.immediate imm) .byte s

/-- LOADBRM (R124): `x[reg1] <- DataLoad(x[reg2], 1)`. -/
def execLoadbrm (reg1 reg2 : Reg) (s : State) : Host.Outcome State Fault Refusal :=
  loadInto reg1 (.register reg2) .byte s

end Sys2Proof.Machine
end

