-- ==== Sys2Proof/Machine/Dispatch.lean ====
section
/-! DEFINITION. The Executor's dispatch: 44 cases and no default case (40_run_loop.md R83). Every meaning starts from a
state whose `pc` is the fall-through address (30_encoding.md R66). -/

namespace Sys2Proof.Machine

def exec (i : Instr) (s : State) : Host.Outcome State Fault Refusal :=
  match i with
  -- control flow (41_control_flow.md)
  | .nop => Sys2Proof.Machine.execNop s
  | .hlt => Sys2Proof.Machine.execHlt s
  | .cmprr reg1 reg2 => Sys2Proof.Machine.execCmprr reg1 reg2 s
  | .cmpri reg1 imm => Sys2Proof.Machine.execCmpri reg1 imm s
  | .jmp imm => Sys2Proof.Machine.execJmp imm s
  | .jmz imm => Sys2Proof.Machine.execJmz imm s
  | .jnz imm => Sys2Proof.Machine.execJnz imm s
  | .jmc imm => Sys2Proof.Machine.execJmc imm s
  | .jms imm => Sys2Proof.Machine.execJms imm s
  | .call imm => Sys2Proof.Machine.execCall imm s
  | .ret => Sys2Proof.Machine.execRet s
  -- data movement (42_data_movement.md)
  | .movrr reg1 reg2 => Sys2Proof.Machine.execMovrr reg1 reg2 s
  | .movri reg1 imm => Sys2Proof.Machine.execMovri reg1 imm s
  | .stordr reg1 imm => Sys2Proof.Machine.execStordr reg1 imm s
  | .stormi reg1 imm => Sys2Proof.Machine.execStormi reg1 imm s
  | .stormr reg1 reg2 => Sys2Proof.Machine.execStormr reg1 reg2 s
  | .loadrd reg1 imm => Sys2Proof.Machine.execLoadrd reg1 imm s
  | .loadrm reg1 reg2 => Sys2Proof.Machine.execLoadrm reg1 reg2 s
  | .pushr reg1 => Sys2Proof.Machine.execPushr reg1 s
  | .popr reg1 => Sys2Proof.Machine.execPopr reg1 s
  | .storbdr reg1 imm => Sys2Proof.Machine.execStorbdr reg1 imm s
  | .storbmi reg1 imm => Sys2Proof.Machine.execStorbmi reg1 imm s
  | .storbmr reg1 reg2 => Sys2Proof.Machine.execStorbmr reg1 reg2 s
  | .loadbrd reg1 imm => Sys2Proof.Machine.execLoadbrd reg1 imm s
  | .loadbrm reg1 reg2 => Sys2Proof.Machine.execLoadbrm reg1 reg2 s
  -- arithmetic (43_arithmetic.md)
  | .addrr reg1 reg2 => Sys2Proof.Machine.execAddrr reg1 reg2 s
  | .addri reg1 imm => Sys2Proof.Machine.execAddri reg1 imm s
  | .subrr reg1 reg2 => Sys2Proof.Machine.execSubrr reg1 reg2 s
  | .subri reg1 imm => Sys2Proof.Machine.execSubri reg1 imm s
  | .mulrr reg1 reg2 => Sys2Proof.Machine.execMulrr reg1 reg2 s
  | .mulri reg1 imm => Sys2Proof.Machine.execMulri reg1 imm s
  | .divrr reg1 reg2 => Sys2Proof.Machine.execDivrr reg1 reg2 s
  | .divri reg1 imm => Sys2Proof.Machine.execDivri reg1 imm s
  | .incr reg1 => Sys2Proof.Machine.execIncr reg1 s
  | .decr reg1 => Sys2Proof.Machine.execDecr reg1 s
  -- bitwise (44_bitwise.md)
  | .andrr reg1 reg2 => Sys2Proof.Machine.execAndrr reg1 reg2 s
  | .andri reg1 imm => Sys2Proof.Machine.execAndri reg1 imm s
  | .orrr reg1 reg2 => Sys2Proof.Machine.execOrrr reg1 reg2 s
  | .orri reg1 imm => Sys2Proof.Machine.execOrri reg1 imm s
  | .xorrr reg1 reg2 => Sys2Proof.Machine.execXorrr reg1 reg2 s
  | .xorri reg1 imm => Sys2Proof.Machine.execXorri reg1 imm s
  | .not reg1 => Sys2Proof.Machine.execNot reg1 s
  | .shr reg1 => Sys2Proof.Machine.execShr reg1 s
  | .shl reg1 => Sys2Proof.Machine.execShl reg1 s

end Sys2Proof.Machine
end

