-- ==== Sys2Proof/Machine/Step.lean ====
section
/-! DEFINITION. One step of the run loop (40_run_loop.md R80), and how the host lays an instruction where the next step
fetches it (log entry 6). -/

namespace Sys2Proof.Machine

/-- The step: bounds check, fetch, decode, execute, bounds check (R80, R81, R82, R84). No step exists from a HALTED or
FAULTED state (R85; log entry 5). -/
def step (s : State) : Host.Outcome State Fault Refusal :=
  match s.run with
  | .halted => .fault .halted
  | .faulted r => .fault (.faulted r)
  | .running =>
    if ramStart ≤ s.pc then .next (raise (.bounds s.pc) s)
    else
      match decode s.cfg.opc (fetchBytes s) with
      | .error _ => .next (decodeFault s)
      | .ok (i, _) => afterInstruction (exec i (advance i s))

/-- The state with an instruction, written as one number in the opcode table's numbering, stored where the next step
fetches. The core must be RUNNING with PC in program space for a fetch to happen; where it is not, it is made so, with
PC at the entry point 0. -/
def State.withFetchWord (s : State) (nbits w : Nat) : State :=
  let pc := if s.pc < ramStart then s.pc else 0
  { s with run := .running, pc := pc, mem := Memory.writeBytes s.mem pc.toNat (tableWordBytes nbits w) }

end Sys2Proof.Machine
end

