-- ==== Sys2Proof/Safety.lean ====
section
/-! DEFINITION. The terms that claims about the machine use: what a step leaves alone, the flags as a whole, the bytes at
PC, and the invariants of every state reached from reset (10_state.md R23). -/

namespace Sys2Proof.Machine

/-! ## What stays as it was -/

/-- What a step may write; everything it does not name stays as it was. -/
structure Writes where
  regs  : List Reg  := []
  bytes : List Word := []
  pc    : Bool := false
  sp    : Bool := false
  flags : Bool := false
  run   : Bool := false
  out   : Bool := false
  inPos : Bool := false
deriving DecidableEq, Repr

/-- From `s` to `t` nothing changed but what `w` names: every other register, every other byte of memory, and every
other part of the state. The parameters never change (00_scope.md R6). -/
def Frame (w : Writes) (s t : State) : Prop :=
  (∀ r : Reg, r ∉ w.regs → t.reg r = s.reg r) ∧
  (∀ a : Word, a ∉ w.bytes → t.readByte a = s.readByte a) ∧
  (w.pc = false → t.pc = s.pc) ∧
  (w.sp = false → t.sp = s.sp) ∧
  (w.flags = false → t.flags = s.flags) ∧
  (w.run = false → t.run = s.run) ∧
  (w.out = false → t.out = s.out) ∧
  (w.inPos = false → t.inPos = s.inPos) ∧
  t.consoleIn = s.consoleIn ∧ t.cfg = s.cfg

/-- The flag byte of `t` holds exactly these three flags; its other five bits are 0 (10_state.md R14). -/
def FlagsAre (t : State) (z c g : Bool) : Prop :=
  t.flagZ = z ∧ t.flagC = c ∧ t.flagS = g ∧
  ∀ k : Fin 8, k ≠ t.cfg.flagBits.zero → k ≠ t.cfg.flagBits.carry → k ≠ t.cfg.flagBits.sign →
    t.flags.getLsbD k = false

/-! ## Ends of an instruction -/

/-- The Executor raised `r` from `s`: the run status says so and nothing else changed (60_exceptions.md R183, R184). -/
def Faults (i : Instr) (s : State) (r : FaultReason) : Prop :=
  ∃ t, exec i s = .next t ∧ t.run = .faulted r ∧ Frame { run := true } s t

/-- `i` completes from `s`: register `d` receives `result`, the flags are Z = (result is 0), C = `carry`, S = bit 15 of
the result, and nothing else changed (43_arithmetic.md R129 to R132). -/
def Computes (i : Instr) (s : State) (d : Reg) (result : Nat) (carry : Bool) : Prop :=
  ∃ t, exec i s = .next t ∧ (t.reg d).toNat = result ∧
    FlagsAre t (decide (result = 0)) carry (decide (32768 ≤ result)) ∧ Frame { regs := [d], flags := true } s t

/-- `i` completes from `s`: the flags are as given and nothing else changed (41_control_flow.md R92, R93). -/
def Compares (i : Instr) (s : State) (z c g : Bool) : Prop :=
  ∃ t, exec i s = .next t ∧ FlagsAre t z c g ∧ Frame { flags := true } s t

/-- `i` completes from `s`: register `d` receives the number `v` and nothing else changed, no flag either. -/
def Sets (i : Instr) (s : State) (d : Reg) (v : Nat) : Prop :=
  ∃ t, exec i s = .next t ∧ (t.reg d).toNat = v ∧ Frame { regs := [d] } s t

/-- `i` completes from `s`: register `d` receives the bits `f` and nothing else changed, no flag either
(44_bitwise.md R150). -/
def SetsBits (i : Instr) (s : State) (d : Reg) (f : Fin 16 → Bool) : Prop :=
  ∃ t, exec i s = .next t ∧ (∀ k : Fin 16, (t.reg d).getLsbD k = f k) ∧ Frame { regs := [d] } s t

/-- `i` completes from `s`: the 16 bits `v` stand at `ea`, low byte first, and nothing else changed
(20_memory.md R31, R43). -/
def StoresWord (i : Instr) (s : State) (ea v : Word) : Prop :=
  ∃ t, exec i s = .next t ∧ t.readByte ea = lowByte v ∧ t.readByte (ea + 1) = highByte v ∧
    Frame { bytes := [ea, ea + 1] } s t

/-- `i` completes from `s`: the low byte of `v` stands at `ea`, and nothing else changed (20_memory.md R43). -/
def StoresByte (i : Instr) (s : State) (ea v : Word) : Prop :=
  ∃ t, exec i s = .next t ∧ t.readByte ea = lowByte v ∧ Frame { bytes := [ea] } s t

/-- `i` completes from `s`: the low byte of `v` is appended to the console output, and nothing else changed, no byte of
memory either (20_memory.md R45, R47). -/
def Emits (i : Instr) (s : State) (v : Word) : Prop :=
  ∃ t, exec i s = .next t ∧ t.out = s.out ++ [lowByte v] ∧ Frame { out := true } s t

/-- `i` completes from `s`: register `d` receives one byte of the console input, zero-extended, which is thereby
consumed, and nothing else changed (20_memory.md R44, R46). -/
def ReadsConsole (i : Instr) (s : State) (d : Reg) (b : Byte) : Prop :=
  ∃ t, exec i s = .next t ∧ (t.reg d).toNat = b.toNat ∧ t.inPos = s.inPos + 1 ∧
    Frame { regs := [d], inPos := true } s t

/-- `i` is a load whose EA in `s` is the RX port, of either width and either address form (20_memory.md R44). -/
def LoadsRx (i : Instr) (s : State) : Prop :=
  ∃ d c : Reg, i = .loadrd d 0xFF00 ∨ i = .loadbrd d 0xFF00 ∨
    (s.reg c = 0xFF00 ∧ (i = .loadrm d c ∨ i = .loadbrm d c))

/-! ## Bytes in memory -/

/-- The bytes that stand in memory from PC on. -/
def BytesAtPc (s : State) (bytes : List Byte) : Prop :=
  ∀ k : Nat, ∀ h : k < bytes.length, s.readByte (s.pc + BitVec.ofNat 16 k) = bytes[k]

/-- The core is about to fetch these bytes under the default OPC. -/
def Fetches (s : State) (bytes : List Byte) : Prop :=
  s.run = .running ∧ s.pc < ramStart ∧ s.cfg.opc = defaultOpcodes ∧ BytesAtPc s bytes

/-- Under the default OPC these bytes, whatever follows them, are the instruction `i`. -/
def Encodes (bytes : List Byte) (i : Instr) : Prop :=
  ∀ rest, decode defaultOpcodes (bytes ++ rest) = .ok (i, rest)

/-- The run status after an instruction that completed normally with this PC (40_run_loop.md R84). -/
def statusAt (pc : Word) : RunStatus := if pc < ramStart then .running else .faulted (.bounds pc)

/-! ## Invariants of the states reached from reset (10_state.md R23) -/

/-- The five bits of the flag byte that are no flags are 0 (R23 (a)). -/
def FlagsClean (s : State) : Prop :=
  ∀ k : Fin 8, k ≠ s.cfg.flagBits.zero → k ≠ s.cfg.flagBits.carry → k ≠ s.cfg.flagBits.sign →
    s.flags.getLsbD k = false

/-- SP is odd and lies from 0x3FFF to STACK_BASE (R23 (b)). -/
def StackInRange (s : State) : Prop := s.sp.toNat % 2 = 1 ∧ 0x3FFF ≤ s.sp.toNat ∧ s.sp.toNat ≤ 0xDEFF

/-- A RUNNING core has its PC in program space (R23 (c)). -/
def PcInProgramSpace (s : State) : Prop := s.run = .running → s.pc.toNat < 0x4000

/-- No more of the console input is consumed than there is (R21). -/
def InputWithinBounds (s : State) : Prop := s.inPos ≤ s.consoleIn.length

/-- The invariants of the processor state together. -/
def Invariant (s : State) : Prop := FlagsClean s ∧ StackInRange s ∧ PcInProgramSpace s ∧ InputWithinBounds s

end Sys2Proof.Machine
end

