-- ==== Sys2Proof/Certificates/Slice0/Obligations.lean ====
section
/-! DEFINITION. The statements for the provers, from the numbered rules of spec/. A docstring names the rule, and says
where a clause rests on the spec's own decision (92_eei_decisions.md D<n>) or on the model's (a log entry). Opcode bytes
are the default of the parameter OPC (D1, log entry 1). -/

open Sys2Proof Sys2Proof.Machine

/-! ## Encoding (30_encoding.md) -/

/-- For every injective OPC, decoding the encoded bytes of an instruction gives it back, with every operand at every
value, and leaves the bytes after it. -/
def Obligations.DecodeOfEncodeIsTheInstruction : Prop :=
  ∀ opc : OpcodeMap, opc.wellFormed → ∀ (i : Instr) (rest : List Byte),
    decode opc (encode opc i ++ rest) = .ok (i, rest)

/-- What the Decoder accepts is an opcode byte, the operand bytes of its format and the rest, and the instruction's own
encoding is these bytes with the ignored nibble cleared (the ignored nibble: D3). -/
def Obligations.EncodeOfDecodeIsTheBytes : Prop :=
  ∀ (opc : OpcodeMap) (bytes rest : List Byte) (i : Instr), decode opc bytes = .ok (i, rest) →
    ∃ (op : Byte) (operands : List Byte), bytes = op :: operands ++ rest ∧
      operands.length = i.mnemonic.format.operandBytes ∧
      encode opc i = op :: clearIgnored i.mnemonic.format operands

/-- The words of 95_test_vectors.md section 2.1, written out, decode to the instructions they stand for. -/
def Obligations.WrittenWordsDecode : Prop :=
  decode defaultOpcodes [0x00] = .ok (.nop, []) ∧
  decode defaultOpcodes [0x17, 0xA0] = .ok (.pushr 10, []) ∧
  decode defaultOpcodes [0x17, 0xAF] = .ok (.pushr 10, []) ∧
  decode defaultOpcodes [0x10, 0x2F] = .ok (.movrr 2 15, []) ∧
  decode defaultOpcodes [0x04, 0x34, 0x12] = .ok (.jmp 0x1234, []) ∧
  decode defaultOpcodes [0x11, 0x70, 0xCD, 0xAB] = .ok (.movri 7 0xABCD, []) ∧
  decode defaultOpcodes [0x11, 0x7F, 0xCD, 0xAB] = .ok (.movri 7 0xABCD, []) ∧
  decode defaultOpcodes [0x20, 0x01] = .ok (.addrr 0 1, []) ∧
  decode defaultOpcodes [0x35, 0x40, 0xFF, 0xFF] = .ok (.xorri 4 0xFFFF, []) ∧
  decode defaultOpcodes [0x0B] = .error (.illegalOpcode 0x0B) ∧
  decode defaultOpcodes [0xFF] = .error (.illegalOpcode 0xFF)

/-- Every row of the opcode table under the default OPC, with every operand value and every value of an ignored nibble
`n` (R60 to R68; opcode bytes D1, formats D2, ignored nibble D3, roles D4). -/
def Obligations.OpcodeTableRowsDecode : Prop :=
  ∀ (a b n : Reg) (v : Word),
    let rr := registerByte a b
    let rn := registerByte a n
    let lo := lowByte v
    let hi := highByte v
    (Encodes [0x00] .nop ∧ Encodes [0x01] .hlt ∧ Encodes [0x02, rr] (.cmprr a b) ∧
      Encodes [0x03, rn, lo, hi] (.cmpri a v) ∧ Encodes [0x04, lo, hi] (.jmp v) ∧ Encodes [0x05, lo, hi] (.jmz v) ∧
      Encodes [0x06, lo, hi] (.jnz v) ∧ Encodes [0x07, lo, hi] (.jmc v) ∧ Encodes [0x08, lo, hi] (.jms v) ∧
      Encodes [0x09, lo, hi] (.call v) ∧ Encodes [0x0A] .ret) ∧
    (Encodes [0x10, rr] (.movrr a b) ∧ Encodes [0x11, rn, lo, hi] (.movri a v) ∧
      Encodes [0x12, rn, lo, hi] (.stordr a v) ∧ Encodes [0x13, rn, lo, hi] (.stormi a v) ∧
      Encodes [0x14, rr] (.stormr a b) ∧ Encodes [0x15, rn, lo, hi] (.loadrd a v) ∧ Encodes [0x16, rr] (.loadrm a b) ∧
      Encodes [0x17, rn] (.pushr a) ∧ Encodes [0x18, rn] (.popr a) ∧ Encodes [0x19, rn, lo, hi] (.storbdr a v) ∧
      Encodes [0x1A, rn, lo, hi] (.storbmi a v) ∧ Encodes [0x1B, rr] (.storbmr a b) ∧
      Encodes [0x1C, rn, lo, hi] (.loadbrd a v) ∧ Encodes [0x1D, rr] (.loadbrm a b)) ∧
    (Encodes [0x20, rr] (.addrr a b) ∧ Encodes [0x21, rn, lo, hi] (.addri a v) ∧ Encodes [0x22, rr] (.subrr a b) ∧
      Encodes [0x23, rn, lo, hi] (.subri a v) ∧ Encodes [0x24, rr] (.mulrr a b) ∧
      Encodes [0x25, rn, lo, hi] (.mulri a v) ∧ Encodes [0x26, rr] (.divrr a b) ∧
      Encodes [0x27, rn, lo, hi] (.divri a v) ∧ Encodes [0x28, rn] (.incr a) ∧ Encodes [0x29, rn] (.decr a)) ∧
    (Encodes [0x30, rr] (.andrr a b) ∧ Encodes [0x31, rn, lo, hi] (.andri a v) ∧ Encodes [0x32, rr] (.orrr a b) ∧
      Encodes [0x33, rn, lo, hi] (.orri a v) ∧ Encodes [0x34, rr] (.xorrr a b) ∧
      Encodes [0x35, rn, lo, hi] (.xorri a v) ∧ Encodes [0x36, rn] (.not a) ∧ Encodes [0x37, rn] (.shr a) ∧
      Encodes [0x38, rn] (.shl a))

/-! ## The step (40_run_loop.md) -/

/-- When the bytes at PC decode to `i`, the step is the meaning of `i` from the fall-through address, followed by the
bounds check where the instruction neither halted nor faulted (R66, R80, R84; HLT before the bounds check: D17). -/
def Obligations.StepRunsTheDecodedInstruction : Prop :=
  ∀ (s : State) (bytes : List Byte) (i : Instr), s.run = .running → s.pc.toNat < 0x4000 → BytesAtPc s bytes →
    decode s.cfg.opc bytes = .ok (i, []) →
    step s =
      match exec i { s with pc := s.pc + BitVec.ofNat 16 bytes.length } with
      | .next t =>
        .next (if t.run = .running ∧ 0x4000 ≤ t.pc.toNat then { t with run := .faulted (.bounds t.pc) } else t)
      | .fault r => .fault r
      | .refused r => .refused r

/-- R171 (and R69): an opcode byte without a table entry raises DecodeFault with its address and the byte; PC has moved
past the one byte and nothing else changed, whatever the bytes after it. Under the default OPC (D1) the illegal bytes are
0x0B to 0x0F, 0x1E to 0x1F, 0x2A to 0x2F and 0x39 to 0xFF. PC after the fault: D18. -/
def Obligations.IllegalOpcodeRaisesDecodeFault : Prop :=
  (∀ s : State, s.run = .running → s.pc.toNat < 0x4000 → s.cfg.opc.mnemonicOf (s.readByte s.pc) = none →
    ∃ t, step s = .next t ∧ t.run = .faulted (.decode s.pc (s.readByte s.pc)) ∧ t.pc = s.pc + 1 ∧
      Frame { pc := true, run := true } s t) ∧
  (∀ b : Byte, defaultOpcodes.mnemonicOf b = none ↔
    (0x0B ≤ b.toNat ∧ b.toNat ≤ 0x0F) ∨ (0x1E ≤ b.toNat ∧ b.toNat ≤ 0x1F) ∨
    (0x2A ≤ b.toNat ∧ b.toNat ≤ 0x2F) ∨ 0x39 ≤ b.toNat)

/-- A legal opcode byte always decodes, to an instruction of its mnemonic from the bytes at PC, and the Executor runs it
with PC past its operand bytes: decoding cannot fault in any other way (R82, 30_encoding.md R70, R72). -/
def Obligations.LegalOpcodeAlwaysDecodes : Prop :=
  ∀ (s : State) (m : Mnemonic), s.run = .running → s.pc.toNat < 0x4000 →
    s.cfg.opc.mnemonicOf (s.readByte s.pc) = some m →
    ∃ (i : Instr) (bytes : List Byte), i.mnemonic = m ∧ bytes.length = m.length ∧ bytes.length ≤ 4 ∧
      BytesAtPc s bytes ∧ decode s.cfg.opc bytes = .ok (i, []) ∧
      step s = afterInstruction (exec i (s.setPc (s.pc + BitVec.ofNat 16 m.length)))

/-- From a RUNNING state with PC outside program space nothing is fetched: the step ends in BoundsFault(pc) and changes
nothing else (R81, D23). -/
def Obligations.PcOutsideProgramSpaceFaultsBeforeFetch : Prop :=
  ∀ s : State, s.run = .running → 0x4000 ≤ s.pc.toNat →
    ∃ t, step s = .next t ∧ t.run = .faulted (.bounds s.pc) ∧ Frame { run := true } s t

/-- R85: no step exists from a HALTED or FAULTED state, and no external event (more console input) changes the status.
Answering the stop as a fault, never as a refusal, is the model's form (log entry 5); delivering input is an operation of
the model's (log entry 2). -/
def Obligations.TerminalStatusHasNoStep : Prop :=
  ∀ s : State, s.run ≠ .running →
    (∀ t, step s ≠ .next t) ∧ (∀ r, step s ≠ .refused r) ∧ ∀ bytes, (deliverInput bytes s).run = s.run

/-- A RUNNING state always has a step, except where the bytes at PC decode to a load whose EA is RX, the console input is
exhausted and RX_EOI is block: there it has none (R80, 20_memory.md R46; blocking: D15; the stop's form: log entry 5). In
particular no instruction is refused. -/
def Obligations.RunningStepCompletesUnlessConsoleBlocks : Prop :=
  ∀ s : State, s.run = .running →
    (∃ t, step s = .next t) ∨
    (step s = .fault .consoleBlocked ∧ s.cfg.rxEoi = .block ∧ s.consoleIn.length ≤ s.inPos ∧ s.pc.toNat < 0x4000 ∧
      ∃ (i : Instr) (bytes : List Byte), BytesAtPc s bytes ∧ decode s.cfg.opc bytes = .ok (i, []) ∧ LoadsRx i s)

/-- R187: HALTED is set only by HLT, and is as final as FAULTED. -/
def Obligations.OnlyHltHalts : Prop :=
  (∀ s t : State, step s = .next t → t.run = .halted → decode s.cfg.opc [s.readByte s.pc] = .ok (.hlt, [])) ∧
  (∀ s : State, s.run = .halted → ∀ t, step s ≠ .next t)

/-- An Executor fault leaves every register, flag, byte of memory, SP and the console as they were; only the run status
says so (60_exceptions.md R183, R184 (a); D18). -/
def Obligations.ExecutorFaultChangesOnlyTheStatus : Prop :=
  ∀ (i : Instr) (s t : State) (r : FaultReason), s.run = .running → exec i s = .next t → t.run = .faulted r →
    Frame { run := true } s t

/-- The Executor faults that each instruction can raise (60_exceptions.md R182, derived there from the instruction
rules): no other reason ever appears. -/
def Obligations.FaultsAreThoseOfTheTable : Prop :=
  ∀ (i : Instr) (s t : State) (r : FaultReason), s.run = .running → exec i s = .next t → t.run = .faulted r →
    ((∃ ea, r = .writeProtect ea) ∧ i.mnemonic ∈ [.stordr, .stormi, .stormr, .storbdr, .storbmi, .storbmr]) ∨
    (r = .address 0xFFFF ∧ i.mnemonic ∈ [.stordr, .stormi, .stormr, .loadrd, .loadrm]) ∨
    ((∃ v, r = .io 0xFF01 v) ∧ i.mnemonic ∈ [.stordr, .stormi, .stormr]) ∨
    ((r = .stack .overflow s.sp ∨ r = .stack .guard s.sp) ∧ i.mnemonic ∈ [.call, .pushr]) ∨
    (r = .stack .underflow s.sp ∧ i.mnemonic ∈ [.ret, .popr]) ∨
    (r = .arithmetic ∧ i.mnemonic ∈ [.divrr, .divri])

/-! ## Control flow (41_control_flow.md) -/

/-- R90: NOP changes nothing but PC, which moves on by 1; BoundsFault if it is the byte at 0x3FFF. -/
def Obligations.NopOnlyAdvancesPc : Prop :=
  (∀ s : State, exec .nop s = .next s) ∧
  (∀ s : State, Fetches s [0x00] →
    ∃ t, step s = .next t ∧ t.pc = s.pc + 1 ∧ t.run = statusAt (s.pc + 1) ∧ Frame { pc := true, run := true } s t)

/-- HLT ends HALTED with PC after the HLT byte and without the bounds check, at 0x3FFF too; nothing else changes (R91;
HLT before the bounds check: 40_run_loop.md R87, the spec's own decision D17, log entry 13). -/
def Obligations.HltHalts : Prop :=
  (∀ s : State, ∃ t, exec .hlt s = .next t ∧ t.run = .halted ∧ Frame { run := true } s t) ∧
  (∀ s : State, Fetches s [0x01] →
    ∃ t, step s = .next t ∧ t.pc = s.pc + 1 ∧ t.run = .halted ∧ Frame { pc := true, run := true } s t)

/-- A compare rewrites the three flags from the subtraction, Z = (a = b), C = (a < b) unsigned, S = bit 15 of the
wrapped difference, and changes nothing else, neither operand (R92, R93, 43_arithmetic.md R129, R131; ignored nibble
`n`: 30_encoding.md R65, the spec's own decision D3; opcode bytes: D1; log entries 1, 10, 13). -/
def Obligations.ComparesWriteOnlyTheFlags : Prop :=
  ∀ (s : State) (a b n : Reg) (v : Word), s.cfg.flagBits.wellFormed →
    (Encodes [0x02, registerByte a b] (.cmprr a b) ∧
      Compares (.cmprr a b) s (decide (s.reg a = s.reg b)) (decide ((s.reg a).toNat < (s.reg b).toNat))
        (decide (32768 ≤ ((s.reg a).toNat + 65536 - (s.reg b).toNat) % 65536))) ∧
    (Encodes [0x03, registerByte a n, lowByte v, highByte v] (.cmpri a v) ∧
      Compares (.cmpri a v) s (decide (s.reg a = v)) (decide ((s.reg a).toNat < v.toNat))
        (decide (32768 ≤ ((s.reg a).toNat + 65536 - v.toNat) % 65536)))

/-- R94 to R98: the five jumps. PC becomes the target where the condition on the old flags holds, else it stays at the
fall-through address (3 bytes on); nothing else changes; then BoundsFault if the resulting PC is at or above 0x4000. -/
def Obligations.JumpsGoToTheirTarget : Prop :=
  ∀ (s : State) (v : Word),
    let Jumps (op : Byte) (i : Instr) (taken : Bool) : Prop :=
      (∃ t, exec i s = .next t ∧ t.pc = (if taken then v else s.pc) ∧ Frame { pc := true } s t) ∧
      (Fetches s [op, lowByte v, highByte v] →
        ∃ t, step s = .next t ∧ t.pc = (if taken then v else s.pc + 3) ∧ t.run = statusAt t.pc ∧
          Frame { pc := true, run := true } s t)
    Jumps 0x04 (.jmp v) true ∧ Jumps 0x05 (.jmz v) s.flagZ ∧ Jumps 0x06 (.jnz v) (!s.flagZ) ∧
    Jumps 0x07 (.jmc v) s.flagC ∧ Jumps 0x08 (.jms v) s.flagS

/-- CALL pushes the address of the instruction after it, low byte at the old SP and high byte below, lowers SP by 2 and
goes to its target (R99; stack layout D7, the bounds of SP D8 and D9, none of them the source's words). -/
def Obligations.CallPushesTheReturnAddress : Prop :=
  ∀ (s : State) (v : Word), 0x4000 < s.sp.toNat → s.sp.toNat ≤ 0xDEFF →
    (∃ t, exec (.call v) s = .next t ∧ t.pc = v ∧ t.sp = s.sp - 2 ∧ t.readByte s.sp = lowByte s.pc ∧
      t.readByte (s.sp - 1) = highByte s.pc ∧ Frame { pc := true, sp := true, bytes := [s.sp, s.sp - 1] } s t) ∧
    (Fetches s [0x09, lowByte v, highByte v] →
      ∃ t, step s = .next t ∧ t.pc = v ∧ t.sp = s.sp - 2 ∧ t.readByte s.sp = lowByte (s.pc + 3) ∧
        t.readByte (s.sp - 1) = highByte (s.pc + 3) ∧ t.run = statusAt v ∧
        Frame { pc := true, sp := true, run := true, bytes := [s.sp, s.sp - 1] } s t)

/-- RET takes the two bytes above SP, the high one first, raises SP by 2 and goes there; memory keeps its bytes (R100;
stack layout D7). -/
def Obligations.RetPopsThePc : Prop :=
  ∀ s : State, s.sp.toNat < 0xDEFF →
    (∃ t, exec .ret s = .next t ∧ t.pc = joinBytes (s.readByte (s.sp + 1)) (s.readByte (s.sp + 2)) ∧
      t.sp = s.sp + 2 ∧ Frame { pc := true, sp := true } s t) ∧
    (Fetches s [0x0A] →
      ∃ t, step s = .next t ∧ t.pc = joinBytes (s.readByte (s.sp + 1)) (s.readByte (s.sp + 2)) ∧ t.sp = s.sp + 2 ∧
        t.run = statusAt t.pc ∧ Frame { pc := true, sp := true, run := true } s t)

/-! ## Data movement (42_data_movement.md) -/

/-- A move sets the destination register to the source register's value or to the immediate, and changes nothing else
(R110, R111; ignored nibble `n`: 30_encoding.md R65, the spec's own decision D3; opcode bytes: D1; log entries 1, 10,
13). -/
def Obligations.MovesSetOnlyTheDestination : Prop :=
  ∀ (s : State) (a b n : Reg) (v : Word),
    (Encodes [0x10, registerByte a b] (.movrr a b) ∧ Sets (.movrr a b) s a (s.reg b).toNat) ∧
    (Encodes [0x11, registerByte a n, lowByte v, highByte v] (.movri a v) ∧ Sets (.movri a v) s a v.toNat)

/-- The 16-bit stores outside program space and the trapped or last address write exactly two bytes, low byte first, at
the address their operands give (R112 to R114; byte order D6, roles D4). -/
def Obligations.WordStoresWriteTwoBytes : Prop :=
  ∀ (s : State) (a b : Reg) (v : Word),
    let Ordinary (ea : Word) : Prop := 0x4000 ≤ ea.toNat ∧ ea ≠ 0xFF01 ∧ ea ≠ 0xFFFF
    (Ordinary v → StoresWord (.stordr a v) s v (s.reg a)) ∧
    (Ordinary (s.reg a) → StoresWord (.stormi a v) s (s.reg a) v) ∧
    (Ordinary (s.reg a) → StoresWord (.stormr a b) s (s.reg a) (s.reg b))

/-- The byte stores outside program space and TX write exactly one byte, the low byte of their value, at the address
their operands give, 0xFFFF included (R119 to R122; D2, D4, D14). -/
def Obligations.ByteStoresWriteOneByte : Prop :=
  ∀ (s : State) (a b : Reg) (v : Word),
    let Ordinary (ea : Word) : Prop := 0x4000 ≤ ea.toNat ∧ ea ≠ 0xFF01
    (Ordinary v → StoresByte (.storbdr a v) s v (s.reg a)) ∧
    (Ordinary (s.reg a) → StoresByte (.storbmi a v) s (s.reg a) v) ∧
    (Ordinary (s.reg a) → StoresByte (.storbmr a b) s (s.reg a) (s.reg b))

/-- A store at TX emits exactly the low byte of its value and writes no memory: a byte store always, a 16-bit store where
the value fits in a byte or TX_WIDE is truncate (20_memory.md R45; D13, D14). -/
def Obligations.StoresToTxEmitOneByte : Prop :=
  ∀ (s : State) (a b : Reg) (v : Word),
    let Fits (w : Word) : Prop := w.toNat ≤ 0xFF ∨ s.cfg.txWide = .truncate
    (Fits (s.reg a) → Emits (.stordr a 0xFF01) s (s.reg a)) ∧
    (s.reg a = 0xFF01 → Fits v → Emits (.stormi a v) s v) ∧
    (s.reg a = 0xFF01 → Fits (s.reg b) → Emits (.stormr a b) s (s.reg b)) ∧
    Emits (.storbdr a 0xFF01) s (s.reg a) ∧
    (s.reg a = 0xFF01 → Emits (.storbmi a v) s v) ∧
    (s.reg a = 0xFF01 → Emits (.storbmr a b) s (s.reg b))

/-- A 16-bit store at TX of a value above 0x00FF with TX_WIDE = fault raises IoFault with the EA and the value, and emits
nothing (60_exceptions.md R177, 20_memory.md R45; D13, a fault kind the spec adds). -/
def Obligations.WideStoreToTxRaisesIoFault : Prop :=
  ∀ (s : State) (a b : Reg) (v : Word), s.cfg.txWide = .fault →
    (0xFF < (s.reg a).toNat → Faults (.stordr a 0xFF01) s (.io 0xFF01 (s.reg a))) ∧
    (s.reg a = 0xFF01 → 0xFF < v.toNat → Faults (.stormi a v) s (.io 0xFF01 v)) ∧
    (s.reg a = 0xFF01 → 0xFF < (s.reg b).toNat → Faults (.stormr a b) s (.io 0xFF01 (s.reg b)))

/-- R173: all six stores raise WriteProtectFault with the EA where it is below the RAM boundary, and memory is unchanged;
pushes never raise it. -/
def Obligations.StoresBelowRamRaiseWriteProtectFault : Prop :=
  (∀ (s : State) (a b : Reg) (v : Word),
    (v.toNat < 0x4000 → Faults (.stordr a v) s (.writeProtect v) ∧ Faults (.storbdr a v) s (.writeProtect v)) ∧
    ((s.reg a).toNat < 0x4000 →
      Faults (.stormi a v) s (.writeProtect (s.reg a)) ∧ Faults (.stormr a b) s (.writeProtect (s.reg a)) ∧
      Faults (.storbmi a v) s (.writeProtect (s.reg a)) ∧ Faults (.storbmr a b) s (.writeProtect (s.reg a)))) ∧
  (∀ (s t : State) (a : Reg) (v ea : Word), s.run = .running →
    (exec (.pushr a) s = .next t ∨ exec (.call v) s = .next t) → t.run ≠ .faulted (.writeProtect ea))

/-- A 16-bit load or store at 0xFFFF raises AddressFault and changes nothing (20_memory.md R41; D12, a fault kind the
spec adds). -/
def Obligations.WordAccessAtLastAddressRaisesAddressFault : Prop :=
  ∀ (s : State) (a b : Reg) (v : Word),
    Faults (.stordr a 0xFFFF) s (.address 0xFFFF) ∧ Faults (.loadrd a 0xFFFF) s (.address 0xFFFF) ∧
    (s.reg a = 0xFFFF → Faults (.stormi a v) s (.address 0xFFFF) ∧ Faults (.stormr a b) s (.address 0xFFFF)) ∧
    (s.reg b = 0xFFFF → Faults (.loadrm a b) s (.address 0xFFFF))

/-- The 16-bit loads, at every address but RX and the last one, program space and the TX port included, set the
destination to the two bytes there, the lower address in the low byte (R115, R116, 20_memory.md R39; byte order D6, roles
D4, loads from program space D22). -/
def Obligations.WordLoadsReadTwoBytes : Prop :=
  ∀ (s : State) (a b : Reg) (v : Word),
    let Loads (i : Instr) (ea : Word) : Prop :=
      ea ≠ 0xFF00 → ea ≠ 0xFFFF →
        Sets i s a (256 * (s.readByte (ea + 1)).toNat + (s.readByte ea).toNat)
    Loads (.loadrd a v) v ∧ Loads (.loadrm a b) (s.reg b)

/-- The byte loads, at every address but RX, set the destination to the byte there, zero-extended (R123, R124; D2, D4,
D14). -/
def Obligations.ByteLoadsZeroExtend : Prop :=
  ∀ (s : State) (a b : Reg) (v : Word),
    (v ≠ 0xFF00 → Sets (.loadbrd a v) s a (s.readByte v).toNat) ∧
    (s.reg b ≠ 0xFF00 → Sets (.loadbrm a b) s a (s.readByte (s.reg b)).toNat)

/-- A load of either width at RX with input left takes the next byte, zero-extended, and consumes it; memory is neither
read nor changed (20_memory.md R44, R46; D14, D15). -/
def Obligations.LoadsFromRxTakeTheNextByte : Prop :=
  ∀ (s : State) (a b : Reg) (c : Byte), s.consoleIn[s.inPos]? = some c →
    ReadsConsole (.loadrd a 0xFF00) s a c ∧ ReadsConsole (.loadbrd a 0xFF00) s a c ∧
    (s.reg b = 0xFF00 → ReadsConsole (.loadrm a b) s a c ∧ ReadsConsole (.loadbrm a b) s a c)

/-- A load at RX with the input exhausted has no step where RX_EOI is block; where it is a value, the destination receives
that value and nothing is consumed (20_memory.md R46; D15, log entry 5). -/
def Obligations.LoadsFromExhaustedRxFollowRxEoi : Prop :=
  ∀ (s : State) (a b : Reg) (i : Instr), s.consoleIn.length ≤ s.inPos →
    (i = .loadrd a 0xFF00 ∨ i = .loadbrd a 0xFF00 ∨ (s.reg b = 0xFF00 ∧ (i = .loadrm a b ∨ i = .loadbrm a b))) →
    (s.cfg.rxEoi = .block → exec i s = .fault .consoleBlocked) ∧
    (∀ v, s.cfg.rxEoi = .value v → Sets i s a v.toNat)

/-- What wakes a blocked load is the console delivering a byte: the state survives the wait, and the load then takes that
byte (60_exceptions.md R193; delivery as an operation of the model's: log entry 2). -/
def Obligations.DeliveredInputWakesABlockedLoad : Prop :=
  ∀ (s : State) (i : Instr) (b : Byte) (bytes : List Byte), exec i s = .fault .consoleBlocked →
    s.inPos ≤ s.consoleIn.length →
    ∃ d c : Reg, (i = .loadrd d 0xFF00 ∨ i = .loadbrd d 0xFF00 ∨ i = .loadrm d c ∨ i = .loadbrm d c) ∧
      ReadsConsole i (deliverInput (b :: bytes) s) d b

/-- PUSHR writes the register's low byte at SP and its high byte below, and lowers SP by 2 (R117; stack layout D7, the
bounds of SP D8 and D9). -/
def Obligations.PushWritesTwoBytesBelowSp : Prop :=
  ∀ (s : State) (a : Reg), 0x4000 < s.sp.toNat → s.sp.toNat ≤ 0xDEFF →
    ∃ t, exec (.pushr a) s = .next t ∧ t.sp = s.sp - 2 ∧ t.readByte s.sp = lowByte (s.reg a) ∧
      t.readByte (s.sp - 1) = highByte (s.reg a) ∧ Frame { sp := true, bytes := [s.sp, s.sp - 1] } s t

/-- POPR sets its register to the two bytes above SP, the high one first, and raises SP by 2; memory keeps its bytes
(R118; stack layout D7). -/
def Obligations.PopReadsTwoBytesAboveSp : Prop :=
  ∀ (s : State) (a : Reg), s.sp.toNat < 0xDEFF →
    ∃ t, exec (.popr a) s = .next t ∧
      (t.reg a).toNat = 256 * (s.readByte (s.sp + 1)).toNat + (s.readByte (s.sp + 2)).toNat ∧ t.sp = s.sp + 2 ∧
      Frame { regs := [a], sp := true } s t

/-- A push or call with SP at or below 0x4000 raises StackFault(overflow), with SP above the stack base
StackFault(guard), and writes nothing (20_memory.md R50, 60_exceptions.md R174, R175; the spec's own policies D8, D9). -/
def Obligations.PushOutsideTheStackRaisesStackFault : Prop :=
  ∀ (s : State) (a : Reg) (v : Word),
    (s.sp.toNat ≤ 0x4000 →
      Faults (.pushr a) s (.stack .overflow s.sp) ∧ Faults (.call v) s (.stack .overflow s.sp)) ∧
    (0xDEFF < s.sp.toNat →
      Faults (.pushr a) s (.stack .guard s.sp) ∧ Faults (.call v) s (.stack .guard s.sp))

/-- A pop or return with SP at or above the stack base raises StackFault(underflow) and leaves registers and memory
unmodified (20_memory.md R51, 60_exceptions.md R174; D8). -/
def Obligations.PopFromTheEmptyStackRaisesStackFault : Prop :=
  ∀ (s : State) (a : Reg), 0xDEFF ≤ s.sp.toNat →
    Faults (.popr a) s (.stack .underflow s.sp) ∧ Faults .ret s (.stack .underflow s.sp)

/-- Push then pop on the same register is an identity on every register and on SP (R118, 95_test_vectors.md S5d; D7 to
D9). -/
def Obligations.PushThenPopIsAnIdentity : Prop :=
  ∀ (s : State) (a : Reg), 0x4000 < s.sp.toNat → s.sp.toNat ≤ 0xDEFF →
    ∃ t u, exec (.pushr a) s = .next t ∧ exec (.popr a) t = .next u ∧
      Frame { bytes := [s.sp, s.sp - 1] } s u

/-- A RET from any state with the SP that a CALL left, and its two stack bytes not overwritten, resumes at the instruction
after the CALL with the old SP (R100, 95_test_vectors.md S5e; D7 to D9). -/
def Obligations.CallThenRetResumesAfterTheCall : Prop :=
  ∀ (s t u : State) (v : Word), s.run = .running → exec (.call v) s = .next t → t.run = .running →
    u.sp = t.sp → u.readByte s.sp = t.readByte s.sp → u.readByte (s.sp - 1) = t.readByte (s.sp - 1) →
    ∃ w, exec .ret u = .next w ∧ w.pc = s.pc ∧ w.sp = s.sp

/-- A pushed value read back by a 16-bit load appears with its bytes swapped (20_memory.md R49, 90_conflicts.md C1;
D6, D7). -/
def Obligations.PushedValueLoadsByteSwapped : Prop :=
  ∀ (s : State) (a d : Reg), 0x4000 < s.sp.toNat → s.sp.toNat ≤ 0xDEFF →
    ∃ t u, exec (.pushr a) s = .next t ∧ exec (.loadrd d (s.sp - 1)) t = .next u ∧
      lowByte (u.reg d) = highByte (s.reg a) ∧ highByte (u.reg d) = lowByte (s.reg a)

/-- A 16-bit store to ordinary memory followed by a 16-bit load of the same address gives the value back; byte loads see
its low byte at the lower address and its high byte at the higher (20_memory.md R31, R52 (b); D6). -/
def Obligations.StoreThenLoadGivesTheValue : Prop :=
  ∀ (s : State) (a d : Reg) (v : Word), 0x4000 ≤ v.toNat → v ≠ 0xFF00 → v ≠ 0xFF01 → v ≠ 0xFFFF →
    ∃ t, exec (.stordr a v) s = .next t ∧ Sets (.loadrd d v) t d (s.reg a).toNat ∧
      Sets (.loadbrd d v) t d ((s.reg a).toNat % 256) ∧
      (v + 1 ≠ 0xFF00 → Sets (.loadbrd d (v + 1)) t d ((s.reg a).toNat / 256))

/-! ## Arithmetic (43_arithmetic.md) -/

/-- ADD wraps modulo 65536 into the destination; Z and S from the result, C where the result is below either operand,
the five other bits of the flag byte 0; nothing else changes (R133, R134, R129, R130; flag byte: 10_state.md R14, D5;
ignored nibble `n`: 30_encoding.md R65, the spec's own decision D3; opcode bytes: D1; log entries 1, 10, 13). -/
def Obligations.AddWritesTheWrappedSum : Prop :=
  ∀ (s : State) (a b n : Reg) (v : Word), s.cfg.flagBits.wellFormed →
    let Adds (i : Instr) (y : Nat) : Prop :=
      let x := (s.reg a).toNat
      let r := (x + y) % 65536
      Computes i s a r (decide (r < x ∨ r < y))
    (Encodes [0x20, registerByte a b] (.addrr a b) ∧ Adds (.addrr a b) (s.reg b).toNat) ∧
    (Encodes [0x21, registerByte a n, lowByte v, highByte v] (.addri a v) ∧ Adds (.addri a v) v.toNat)

/-- SUB wraps modulo 65536 into the destination; Z and S from the result, C where the minuend is below the subtrahend,
the five other bits of the flag byte 0; nothing else changes (R135, R136, R129, R131; flag byte: 10_state.md R14, D5;
ignored nibble `n`: 30_encoding.md R65, the spec's own decision D3; opcode bytes: D1; log entries 1, 10, 13). -/
def Obligations.SubWritesTheWrappedDifference : Prop :=
  ∀ (s : State) (a b n : Reg) (v : Word), s.cfg.flagBits.wellFormed →
    let Subtracts (i : Instr) (y : Nat) : Prop :=
      let x := (s.reg a).toNat
      Computes i s a ((x + 65536 - y) % 65536) (decide (x < y))
    (Encodes [0x22, registerByte a b] (.subrr a b) ∧ Subtracts (.subrr a b) (s.reg b).toNat) ∧
    (Encodes [0x23, registerByte a n, lowByte v, highByte v] (.subri a v) ∧ Subtracts (.subri a v) v.toNat)

/-- MUL writes the low 16 bits of the product; flags by the additive rule, applied literally, the five other bits of
the flag byte 0; nothing else changes (R137, R138, R129, R130; flag byte: 10_state.md R14, D5; ignored nibble `n`:
30_encoding.md R65, the spec's own decision D3; opcode bytes: D1; log entries 1, 10, 13). -/
def Obligations.MulWritesTheLowProduct : Prop :=
  ∀ (s : State) (a b n : Reg) (v : Word), s.cfg.flagBits.wellFormed →
    let Multiplies (i : Instr) (y : Nat) : Prop :=
      let x := (s.reg a).toNat
      let r := (x * y) % 65536
      Computes i s a r (decide (r < x ∨ r < y))
    (Encodes [0x24, registerByte a b] (.mulrr a b) ∧ Multiplies (.mulrr a b) (s.reg b).toNat) ∧
    (Encodes [0x25, registerByte a n, lowByte v, highByte v] (.mulri a v) ∧ Multiplies (.mulri a v) v.toNat)

/-- DIV with a non-zero divisor writes the floor of the quotient; Z and S from the quotient; C is the free value
DIV_CARRY of the operands and the quotient; nothing else changes. DIV by zero raises ArithmeticFault, the register and
the flags unchanged (R139, R140, R143, R176; D10, D11, log entry 3). -/
def Obligations.DivWritesTheQuotientOrFaults : Prop :=
  ∀ (s : State) (a b : Reg) (v : Word), s.cfg.flagBits.wellFormed →
    let Divides (i : Instr) (y : Word) : Prop :=
      let q := (s.reg a).toNat / y.toNat
      (y ≠ 0 → Computes i s a q (Config.divCarry (s.reg a) y (BitVec.ofNat 16 q))) ∧
      (y = 0 → Faults i s .arithmetic)
    Divides (.divrr a b) (s.reg b) ∧ Divides (.divri a v) v

/-- INCR and DECR are ADD and SUB of the literal 1 on the register's value, flags by the same rules; nothing else
changes (R141, R142, R129 to R131; flag byte: 10_state.md R14, D5; ignored nibble `n`: 30_encoding.md R62, the spec's
own decision D3; opcode bytes: D1; log entries 1, 10, 13). -/
def Obligations.IncrAndDecrAreByTheLiteralOne : Prop :=
  ∀ (s : State) (a n : Reg), s.cfg.flagBits.wellFormed →
    let x := (s.reg a).toNat
    let r := (x + 1) % 65536
    (Encodes [0x28, registerByte a n] (.incr a) ∧ Computes (.incr a) s a r (decide (r < x ∨ r < 1))) ∧
    (Encodes [0x29, registerByte a n] (.decr a) ∧ Computes (.decr a) s a ((x + 65535) % 65536) (decide (x < 1)))

/-- C after ADD is the carry out of bit 15, C after SUB and CMP is the borrow, and Z after SUB and CMP says that the
operands are equal, in the register and the immediate forms; C is set exactly at 0xFFFF after INCR and exactly at 0 after
DECR (derived in the spec from R130, R131, R141 and R142). -/
def Obligations.CarryAndZeroMeanOverflowBorrowEquality : Prop :=
  ∀ (s t : State) (a b : Reg) (v : Word), s.cfg.flagBits.wellFormed →
    let x := (s.reg a).toNat
    let Carries (i : Instr) (y : Nat) : Prop := exec i s = .next t → (t.flagC = true ↔ 65536 ≤ x + y)
    let Borrows (i : Instr) (y : Nat) : Prop :=
      exec i s = .next t → (t.flagC = true ↔ x < y) ∧ (t.flagZ = true ↔ x = y)
    (Carries (.addrr a b) (s.reg b).toNat ∧ Carries (.addri a v) v.toNat) ∧
    (Borrows (.subrr a b) (s.reg b).toNat ∧ Borrows (.subri a v) v.toNat) ∧
    (Borrows (.cmprr a b) (s.reg b).toNat ∧ Borrows (.cmpri a v) v.toNat) ∧
    (exec (.incr a) s = .next t → (t.flagC = true ↔ x = 65535)) ∧
    (exec (.decr a) s = .next t → (t.flagC = true ↔ x = 0))

/-! ## Bitwise (44_bitwise.md) -/

/-- AND, OR and XOR, bit by bit; no flag and nothing else changes (R150 to R156; ignored nibble `n`: 30_encoding.md
R65, the spec's own decision D3; opcode bytes: D1; log entries 1, 10, 13). -/
def Obligations.AndOrXorWorkBitByBit : Prop :=
  ∀ (s : State) (a b n : Reg) (v : Word),
    let bit (w : Word) (k : Fin 16) : Bool := w.getLsbD k
    let imm (op : Byte) : List Byte := [op, registerByte a n, lowByte v, highByte v]
    let x := s.reg a
    let y := s.reg b
    (Encodes [0x30, registerByte a b] (.andrr a b) ∧ SetsBits (.andrr a b) s a (fun k => bit x k && bit y k)) ∧
    (Encodes (imm 0x31) (.andri a v) ∧ SetsBits (.andri a v) s a (fun k => bit x k && bit v k)) ∧
    (Encodes [0x32, registerByte a b] (.orrr a b) ∧ SetsBits (.orrr a b) s a (fun k => bit x k || bit y k)) ∧
    (Encodes (imm 0x33) (.orri a v) ∧ SetsBits (.orri a v) s a (fun k => bit x k || bit v k)) ∧
    (Encodes [0x34, registerByte a b] (.xorrr a b) ∧ SetsBits (.xorrr a b) s a (fun k => bit x k ^^ bit y k)) ∧
    (Encodes (imm 0x35) (.xorri a v) ∧ SetsBits (.xorri a v) s a (fun k => bit x k ^^ bit v k))

/-- NOT is 0xFFFF minus the register, SHR the register div 2, SHL the register times 2 modulo 65536; no flag and
nothing else changes (R157 to R159, R150, whose REG format is D2; ignored nibble `n`: 30_encoding.md R62, the spec's
own decision D3; opcode bytes: D1; log entries 1, 10, 13). -/
def Obligations.NotAndShiftsWriteOnlyTheRegister : Prop :=
  ∀ (s : State) (a n : Reg),
    let x := (s.reg a).toNat
    (Encodes [0x36, registerByte a n] (.not a) ∧ Sets (.not a) s a (65535 - x)) ∧
    (Encodes [0x37, registerByte a n] (.shr a) ∧ Sets (.shr a) s a (x / 2)) ∧
    (Encodes [0x38, registerByte a n] (.shl a) ∧ Sets (.shl a) s a (x * 2 % 65536))

/-! ## Whole-machine rules -/

/-- R15: FLAGS is written only by the twelve arithmetic and compare instructions, and not by one that faults; their new
flags do not depend on the old ones; JMZ and JNZ read only Z, JMC only C, JMS only S, and nothing else reads a flag. -/
def Obligations.FlagsAreWrittenAndReadOnlyAsListed : Prop :=
  ∀ (i : Instr) (s : State) (f : Byte), s.run = .running →
    let writers : List Mnemonic :=
      [.addrr, .addri, .subrr, .subri, .mulrr, .mulri, .divrr, .divri, .incr, .decr, .cmprr, .cmpri]
    let s' := s.setFlags f
    (∀ t, exec i s = .next t → (i.mnemonic ∉ writers ∨ t.run ≠ .running) → t.flags = s.flags) ∧
    (∀ t, exec i s = .next t → i.mnemonic ∈ writers → t.run = .running → exec i s' = .next t) ∧
    (∀ t, exec i s = .next t → (i.mnemonic ∉ writers ∨ t.run ≠ .running) →
      (i.mnemonic ∈ [.jmz, .jnz] → s'.flagZ = s.flagZ) → (i.mnemonic = .jmc → s'.flagC = s.flagC) →
      (i.mnemonic = .jms → s'.flagS = s.flagS) → exec i s' = .next (t.setFlags f))

/-- SP moves only by 2, down by PUSHR and CALL and up by POPR and RET; no other instruction writes it (10_state.md R13;
D7). -/
def Obligations.OnlyStackInstructionsMoveSp : Prop :=
  ∀ (i : Instr) (s t : State), exec i s = .next t →
    t.sp = s.sp ∨ (t.sp = s.sp - 2 ∧ i.mnemonic ∈ [.pushr, .call]) ∨ (t.sp = s.sp + 2 ∧ i.mnemonic ∈ [.popr, .ret])

/-- A step emits at most one console byte, only by a store whose EA is TX, and consumes at most one, only by a load whose
EA is RX; the output only grows (20_memory.md R36, 10_state.md R20, R21; derived there from R42 and R43). -/
def Obligations.ConsoleMovesOnlyAtItsPorts : Prop :=
  ∀ (i : Instr) (s t : State), exec i s = .next t →
    (t.out = s.out ∨ ∃ b a c v, t.out = s.out ++ [b] ∧
      (i = .stordr a 0xFF01 ∨ i = .storbdr a 0xFF01 ∨
        (s.reg a = 0xFF01 ∧ (i = .stormi a v ∨ i = .stormr a c ∨ i = .storbmi a v ∨ i = .storbmr a c)))) ∧
    (t.inPos = s.inPos ∨ (t.inPos = s.inPos + 1 ∧ ∃ a c,
      i = .loadrd a 0xFF00 ∨ i = .loadbrd a 0xFF00 ∨
        (s.reg c = 0xFF00 ∧ (i = .loadrm a c ∨ i = .loadbrm a c))))

/-- The byte at the TX port changes only through a 16-bit store whose EA is 0xFF00 (10_state.md R23 (e)). -/
def Obligations.TxByteChangesOnlyThroughRxStore : Prop :=
  ∀ (i : Instr) (s t : State), exec i s = .next t → t.readByte 0xFF01 ≠ s.readByte 0xFF01 →
    ∃ a c v, i = .stordr a 0xFF00 ∨ (s.reg a = 0xFF00 ∧ (i = .stormi a v ∨ i = .stormr a c))

/-- No step, from any state whatever, changes a byte of program space: the image is read-only once loaded
(20_memory.md R54, 10_state.md R23 (d); the push side rests on D9). -/
def Obligations.ProgramSpaceIsNeverWritten : Prop :=
  ∀ s t : State, step s = .next t → ∀ a : Word, a.toNat < 0x4000 → t.readByte a = s.readByte a

/-- The parameters of the run are not state: no step changes OPC, the flag positions, RX_EOI, TX_WIDE or the console input
stream (00_scope.md R6; that they stand in State is the model's choice, log entries 1 and 2). -/
def Obligations.ParametersAreNeverWritten : Prop :=
  ∀ s t : State, step s = .next t → t.cfg = s.cfg ∧ t.consoleIn = s.consoleIn

/-- Every step keeps the invariant of the states reached from reset: the five other bits of the flag byte are 0, SP is odd
and from 0x3FFF to 0xDEFF, a RUNNING core has its PC in program space (10_state.md R23 (a) to (c), derived there); and no more input is consumed
than there is (R21). -/
def Obligations.StepKeepsTheInvariant : Prop :=
  ∀ s t : State, Invariant s → step s = .next t → Invariant t

/-- Every step keeps the memory in its canonical form, the model's representation (10_state.md R19; log entry 14). -/
def Obligations.StepKeepsMemoryCanonical : Prop :=
  ∀ s t : State, Memory.wf s.mem → step s = .next t → Memory.wf t.mem

/-- Memories in canonical form that read the same at every address are the same data (the model's representation, log
entry 14). -/
def Obligations.CanonicalMemoriesWithEqualBytesAreEqual : Prop :=
  ∀ s t : State, Memory.wf s.mem → Memory.wf t.mem → (∀ a : Word, t.readByte a = s.readByte a) → t.mem = s.mem

/-- The reset state meets the invariants that every step keeps, and so does what the Loader makes of it (10_state.md
R22, R23, R200, R201). The memory's canonical form is the model's representation (log entry 14), the parameters at
reset are the spec's defaults (log entry 1), and the Loader is a second operation of the model's (log entry 6). -/
def Obligations.ResetMeetsTheInvariants : Prop :=
  (Invariant State.reset ∧ Memory.wf State.reset.mem ∧ Config.wellFormed State.reset.cfg) ∧
  ∀ (image : List Byte) (s : State), loadImage image State.reset = some s →
    Invariant s ∧ Memory.wf s.mem ∧ Config.wellFormed s.cfg

/-- R200: the reset state is a function of the image: sixteen registers 0, PC 0, SP 0xDEFF, flags 0, RUNNING, no output,
no input consumed, and memory holding the image from address 0 and 0x00 elsewhere (rejecting a longer image: D19; that
the model loads it in a second operation: log entry 6). -/
def Obligations.ResetStateIsTheLoadedImage : Prop :=
  ∀ image : List Byte,
    (image.length ≤ 65536 →
      ∃ s, loadImage image State.reset = some s ∧ (∀ r, s.reg r = 0) ∧ s.pc = 0 ∧ s.sp = 0xDEFF ∧ s.flags = 0 ∧
        s.run = .running ∧ s.out = [] ∧ s.inPos = 0 ∧ ∀ a : Word, s.readByte a = (image[a.toNat]?).getD 0) ∧
    (65536 < image.length → loadImage image State.reset = none)

/-- Flag positions are visible only to the Dump: two states alike but for the positions and the flag byte, with the same
Z, C and S, take steps of the same kind to states that are alike in the same way (10_state.md R14; D5). -/
def Obligations.FlagPositionsAreUnobservable : Prop :=
  let Alike (s s' : State) : Prop :=
    (∃ p f, s' = { s with flags := f, cfg := { s.cfg with flagBits := p } }) ∧
    s.cfg.flagBits.wellFormed ∧ s'.cfg.flagBits.wellFormed ∧
    s'.flagZ = s.flagZ ∧ s'.flagC = s.flagC ∧ s'.flagS = s.flagS
  ∀ s s' : State, Alike s s' →
    (∀ t, step s = .next t → ∃ t', step s' = .next t' ∧ Alike t t') ∧
    (∀ r, step s = .fault r → step s' = .fault r)
end

