-- ==== Sys2Proof/Laws/Decode.lean ====
section
/-! SUPPORT. The small laws of the encoding: bytes and nibbles put together and taken apart, the opcode table looked up
under an injective OPC, and the fields of each format. -/

namespace Sys2Proof

theorem toNat_joinBytes (hi lo : Byte) : (joinBytes hi lo).toNat = 256 * hi.toNat + lo.toNat := by
  have h1 := hi.isLt
  have h2 := lo.isLt
  simp [joinBytes]; omega

theorem toNat_lowByte (v : Word) : (lowByte v).toNat = v.toNat % 256 := by simp [lowByte]

theorem toNat_highByte (v : Word) : (highByte v).toNat = v.toNat / 256 := by
  have := v.isLt
  simp [highByte, Nat.shiftRight_eq_div_pow]; omega

@[simp] theorem joinBytes_high_low (v : Word) : joinBytes (highByte v) (lowByte v) = v := by
  apply BitVec.eq_of_toNat_eq
  rw [toNat_joinBytes, toNat_lowByte, toNat_highByte]; omega

@[simp] theorem lowByte_joinBytes (hi lo : Byte) : lowByte (joinBytes hi lo) = lo := by
  apply BitVec.eq_of_toNat_eq
  rw [toNat_lowByte, toNat_joinBytes]; omega

@[simp] theorem highByte_joinBytes (hi lo : Byte) : highByte (joinBytes hi lo) = hi := by
  apply BitVec.eq_of_toNat_eq
  rw [toNat_highByte, toNat_joinBytes]; omega

@[simp] theorem highNibble_registerByte (hi lo : Reg) : highNibble (registerByte hi lo) = hi := by
  apply Fin.ext; simp only [highNibble, registerByte, BitVec.toNat_ofNat]; omega

@[simp] theorem lowNibble_registerByte (hi lo : Reg) : lowNibble (registerByte hi lo) = lo := by
  apply Fin.ext; simp only [lowNibble, registerByte, BitVec.toNat_ofNat]; omega

@[simp] theorem registerByte_nibbles (b : Byte) : registerByte (highNibble b) (lowNibble b) = b := by
  apply BitVec.eq_of_toNat_eq
  have := b.isLt
  simp only [highNibble, lowNibble, registerByte, BitVec.toNat_ofNat]; omega

theorem Mnemonic.mem_all (m : Mnemonic) : m ∈ Mnemonic.all := by cases m <;> decide

theorem Mnemonic.index_injective {m n : Mnemonic} (h : m.index = n.index) : m = n := by
  have h' : m.ctorIdx = n.ctorIdx := congrArg Fin.val h
  cases m <;> first | (cases n <;> first | rfl | (exact absurd h' (by decide)))

/-- An injective OPC gives different mnemonics different bytes (00_scope.md R8). -/
theorem OpcodeMap.byteOf_injective {opc : OpcodeMap} (h : opc.wellFormed) {m n : Mnemonic}
    (e : opc.byteOf m = opc.byteOf n) : m = n := by
  apply Mnemonic.index_injective
  have hl : opc.toList.length = 44 := by simp
  have := (List.nodup_iff_injective_get.1 h)
    (a₁ := ⟨m.index, by rw [hl]; exact m.index.isLt⟩) (a₂ := ⟨n.index, by rw [hl]; exact n.index.isLt⟩)
    (by simpa [OpcodeMap.byteOf] using e)
  exact Fin.ext (by simpa using congrArg Fin.val this)

/-- The table finds every mnemonic by its byte. -/
theorem OpcodeMap.mnemonicOf_byteOf {opc : OpcodeMap} (h : opc.wellFormed) (m : Mnemonic) :
    opc.mnemonicOf (opc.byteOf m) = some m := by
  unfold OpcodeMap.mnemonicOf
  cases hf : Mnemonic.all.find? (fun n => opc.byteOf n == opc.byteOf m) with
  | none => exact absurd (List.find?_eq_none.1 hf m m.mem_all) (by simp)
  | some n =>
    have e : opc.byteOf n = opc.byteOf m := by simpa using List.find?_some hf
    rw [OpcodeMap.byteOf_injective h e]

/-- What the table finds has the byte it was looked up by. -/
theorem OpcodeMap.byteOf_of_mnemonicOf {opc : OpcodeMap} {op : Byte} {m : Mnemonic} (h : opc.mnemonicOf op = some m) :
    opc.byteOf m = op := by simpa using List.find?_some h

theorem defaultOpcodes_wellFormed : defaultOpcodes.wellFormed := by decide

/-- An instruction has 1 to 4 bytes (30_encoding.md R60). -/
theorem Mnemonic.length_bounds (m : Mnemonic) : 1 ≤ m.length ∧ m.length ≤ 4 := by cases m <;> decide

theorem Instr.length_le_four (i : Instr) : i.length ≤ 4 := i.mnemonic.length_bounds.2

/-- The fields of encoded operand bytes. -/
theorem decodeFields_encodeFields (i : Instr) (rest : List Byte) :
    decodeFields i.mnemonic.format (encodeFields i.mnemonic.format i.fields ++ rest) = some (i.fields, rest) := by
  cases i <;> simp [Instr.mnemonic, Mnemonic.format, encodeFields, decodeFields, Instr.fields]

/-- An instruction is its mnemonic and its fields. -/
theorem instrOf_mnemonic_fields (i : Instr) : instrOf i.mnemonic i.fields = i := by cases i <;> rfl

theorem mnemonic_instrOf (m : Mnemonic) (f : Fields) : (instrOf m f).mnemonic = m := by cases m <;> rfl

/-- Four bytes are enough for every format (30_encoding.md R60). -/
theorem decodeFields_isSome (f : Format) (b1 b2 b3 : Byte) : ∃ g rest, decodeFields f [b1, b2, b3] = some (g, rest) := by
  cases f <;> simp [decodeFields]

/-- What decoding a list of bytes gives: the table's answer on the first byte decides (R66, R69). -/
theorem decode_cons (opc : OpcodeMap) (op : Byte) (rest : List Byte) :
    decode opc (op :: rest) =
      match opc.mnemonicOf op with
      | none => .error (.illegalOpcode op)
      | some m =>
        match decodeFields m.format rest with
        | none => .error .truncated
        | some (f, rest') => .ok (instrOf m f, rest') := rfl

theorem decode_of_mnemonicOf {opc : OpcodeMap} {op : Byte} {m : Mnemonic} {bs rest : List Byte} {f : Fields}
    (hm : opc.mnemonicOf op = some m) (hf : decodeFields m.format bs = some (f, rest)) :
    decode opc (op :: bs) = .ok (instrOf m f, rest) := by
  simp only [decode_cons, hm, hf]

/-- What the Decoder has accepted: an opcode byte of the table, then the operand bytes of its format. -/
theorem decode_ok {opc : OpcodeMap} {bytes rest : List Byte} {i : Instr} (h : decode opc bytes = .ok (i, rest)) :
    ∃ op bs m f, bytes = op :: bs ∧ opc.mnemonicOf op = some m ∧ decodeFields m.format bs = some (f, rest) ∧
      i = instrOf m f := by
  cases bytes with
  | nil => cases h
  | cons op bs =>
    cases hm : opc.mnemonicOf op with
    | none => simp [decode_cons, hm] at h
    | some m =>
      cases hf : decodeFields m.format bs with
      | none => simp [decode_cons, hm, hf] at h
      | some p =>
        simp only [decode_cons, hm, hf, Except.ok.injEq, Prod.mk.injEq] at h
        exact ⟨op, bs, m, p.1, rfl, hm, by rw [hf, ← h.2], h.1.symm⟩

/-- The operand bytes that a format takes, and the bytes after them. -/
theorem decodeFields_append {g : Format} {bs rest : List Byte} {f : Fields} (h : decodeFields g bs = some (f, rest))
    (more : List Byte) : decodeFields g (bs ++ more) = some (f, rest ++ more) := by
  cases g <;> rcases bs with _ | ⟨b1, _ | ⟨b2, _ | ⟨b3, bs⟩⟩⟩ <;> simp_all [decodeFields]

theorem decodeFields_length {g : Format} {bs rest : List Byte} {f : Fields} (h : decodeFields g bs = some (f, rest)) :
    bs.length = g.operandBytes + rest.length := by
  cases g <;> rcases bs with _ | ⟨b1, _ | ⟨b2, _ | ⟨b3, bs⟩⟩⟩ <;> simp [decodeFields] at h <;>
    simp only [Format.operandBytes, ← h.2, List.length_cons, List.length_nil] <;> omega

/-- The fields do not depend on the bytes after the operand bytes. -/
theorem decodeFields_take {g : Format} {bs rest : List Byte} {f : Fields} (h : decodeFields g bs = some (f, rest)) :
    decodeFields g (bs.take g.operandBytes) = some (f, []) := by
  cases g <;> rcases bs with _ | ⟨b1, _ | ⟨b2, _ | ⟨b3, bs⟩⟩⟩ <;> simp_all [decodeFields, Format.operandBytes]

/-- Bytes after those an instruction takes do not change what the Decoder reads. -/
theorem decode_append {opc : OpcodeMap} {bytes rest : List Byte} {i : Instr} (h : decode opc bytes = .ok (i, rest))
    (more : List Byte) : decode opc (bytes ++ more) = .ok (i, rest ++ more) := by
  obtain ⟨op, bs, m, f, rfl, hm, hf, rfl⟩ := decode_ok h
  exact decode_of_mnemonicOf hm (decodeFields_append hf more)

/-- The number of bytes the Decoder takes is the instruction's length. -/
theorem decode_length {opc : OpcodeMap} {bytes rest : List Byte} {i : Instr} (h : decode opc bytes = .ok (i, rest)) :
    bytes.length = i.length + rest.length := by
  obtain ⟨op, bs, m, f, rfl, -, hf, rfl⟩ := decode_ok h
  rw [List.length_cons, decodeFields_length hf, Instr.length, mnemonic_instrOf, Mnemonic.length]; omega

/-- The Decoder reads the same instruction from its own bytes alone. -/
theorem decode_take {opc : OpcodeMap} {bytes rest : List Byte} {i : Instr} (h : decode opc bytes = .ok (i, rest)) :
    decode opc (bytes.take i.length) = .ok (i, []) := by
  obtain ⟨op, bs, m, f, rfl, hm, hf, rfl⟩ := decode_ok h
  rw [Instr.length, mnemonic_instrOf, Mnemonic.length, Nat.add_comm, List.take_succ_cons]
  exact decode_of_mnemonicOf hm (decodeFields_take hf)

end Sys2Proof
end

