-- ==== Sys2Proof/Laws/State.lean ====
section
/-! SUPPORT. One lemma per field per update of State, each true by definition, and the reads that follow from them: no
later proof unfolds a record update. -/

namespace Sys2Proof.Machine

variable (s : State)

/-! ### `setReg` -/

@[simp] theorem setReg_x (r : Reg) (v : Word) : (s.setReg r v).x = s.x.set r v := rfl
@[simp] theorem setReg_pc (r : Reg) (v : Word) : (s.setReg r v).pc = s.pc := rfl
@[simp] theorem setReg_sp (r : Reg) (v : Word) : (s.setReg r v).sp = s.sp := rfl
@[simp] theorem setReg_flags (r : Reg) (v : Word) : (s.setReg r v).flags = s.flags := rfl
@[simp] theorem setReg_mem (r : Reg) (v : Word) : (s.setReg r v).mem = s.mem := rfl
@[simp] theorem setReg_run (r : Reg) (v : Word) : (s.setReg r v).run = s.run := rfl
@[simp] theorem setReg_out (r : Reg) (v : Word) : (s.setReg r v).out = s.out := rfl
@[simp] theorem setReg_inPos (r : Reg) (v : Word) : (s.setReg r v).inPos = s.inPos := rfl
@[simp] theorem setReg_consoleIn (r : Reg) (v : Word) : (s.setReg r v).consoleIn = s.consoleIn := rfl
@[simp] theorem setReg_cfg (r : Reg) (v : Word) : (s.setReg r v).cfg = s.cfg := rfl

/-! ### `setPc` -/

@[simp] theorem setPc_x (v : Word) : (s.setPc v).x = s.x := rfl
@[simp] theorem setPc_pc (v : Word) : (s.setPc v).pc = v := rfl
@[simp] theorem setPc_sp (v : Word) : (s.setPc v).sp = s.sp := rfl
@[simp] theorem setPc_flags (v : Word) : (s.setPc v).flags = s.flags := rfl
@[simp] theorem setPc_mem (v : Word) : (s.setPc v).mem = s.mem := rfl
@[simp] theorem setPc_run (v : Word) : (s.setPc v).run = s.run := rfl
@[simp] theorem setPc_out (v : Word) : (s.setPc v).out = s.out := rfl
@[simp] theorem setPc_inPos (v : Word) : (s.setPc v).inPos = s.inPos := rfl
@[simp] theorem setPc_consoleIn (v : Word) : (s.setPc v).consoleIn = s.consoleIn := rfl
@[simp] theorem setPc_cfg (v : Word) : (s.setPc v).cfg = s.cfg := rfl

/-! ### `setSp` -/

@[simp] theorem setSp_x (v : Word) : (s.setSp v).x = s.x := rfl
@[simp] theorem setSp_pc (v : Word) : (s.setSp v).pc = s.pc := rfl
@[simp] theorem setSp_sp (v : Word) : (s.setSp v).sp = v := rfl
@[simp] theorem setSp_flags (v : Word) : (s.setSp v).flags = s.flags := rfl
@[simp] theorem setSp_mem (v : Word) : (s.setSp v).mem = s.mem := rfl
@[simp] theorem setSp_run (v : Word) : (s.setSp v).run = s.run := rfl
@[simp] theorem setSp_out (v : Word) : (s.setSp v).out = s.out := rfl
@[simp] theorem setSp_inPos (v : Word) : (s.setSp v).inPos = s.inPos := rfl
@[simp] theorem setSp_consoleIn (v : Word) : (s.setSp v).consoleIn = s.consoleIn := rfl
@[simp] theorem setSp_cfg (v : Word) : (s.setSp v).cfg = s.cfg := rfl

/-! ### `setFlags` -/

@[simp] theorem setFlags_x (v : Byte) : (s.setFlags v).x = s.x := rfl
@[simp] theorem setFlags_pc (v : Byte) : (s.setFlags v).pc = s.pc := rfl
@[simp] theorem setFlags_sp (v : Byte) : (s.setFlags v).sp = s.sp := rfl
@[simp] theorem setFlags_flags (v : Byte) : (s.setFlags v).flags = v := rfl
@[simp] theorem setFlags_mem (v : Byte) : (s.setFlags v).mem = s.mem := rfl
@[simp] theorem setFlags_run (v : Byte) : (s.setFlags v).run = s.run := rfl
@[simp] theorem setFlags_out (v : Byte) : (s.setFlags v).out = s.out := rfl
@[simp] theorem setFlags_inPos (v : Byte) : (s.setFlags v).inPos = s.inPos := rfl
@[simp] theorem setFlags_consoleIn (v : Byte) : (s.setFlags v).consoleIn = s.consoleIn := rfl
@[simp] theorem setFlags_cfg (v : Byte) : (s.setFlags v).cfg = s.cfg := rfl

/-! ### `writeByte` -/

@[simp] theorem writeByte_x (a : Word) (b : Byte) : (s.writeByte a b).x = s.x := rfl
@[simp] theorem writeByte_pc (a : Word) (b : Byte) : (s.writeByte a b).pc = s.pc := rfl
@[simp] theorem writeByte_sp (a : Word) (b : Byte) : (s.writeByte a b).sp = s.sp := rfl
@[simp] theorem writeByte_flags (a : Word) (b : Byte) : (s.writeByte a b).flags = s.flags := rfl
@[simp] theorem writeByte_mem (a : Word) (b : Byte) : (s.writeByte a b).mem = Memory.write s.mem a.toNat b := rfl
@[simp] theorem writeByte_run (a : Word) (b : Byte) : (s.writeByte a b).run = s.run := rfl
@[simp] theorem writeByte_out (a : Word) (b : Byte) : (s.writeByte a b).out = s.out := rfl
@[simp] theorem writeByte_inPos (a : Word) (b : Byte) : (s.writeByte a b).inPos = s.inPos := rfl
@[simp] theorem writeByte_consoleIn (a : Word) (b : Byte) : (s.writeByte a b).consoleIn = s.consoleIn := rfl
@[simp] theorem writeByte_cfg (a : Word) (b : Byte) : (s.writeByte a b).cfg = s.cfg := rfl

/-! ### `raise` -/

@[simp] theorem raise_x (r : FaultReason) : (raise r s).x = s.x := rfl
@[simp] theorem raise_pc (r : FaultReason) : (raise r s).pc = s.pc := rfl
@[simp] theorem raise_sp (r : FaultReason) : (raise r s).sp = s.sp := rfl
@[simp] theorem raise_flags (r : FaultReason) : (raise r s).flags = s.flags := rfl
@[simp] theorem raise_mem (r : FaultReason) : (raise r s).mem = s.mem := rfl
@[simp] theorem raise_run (r : FaultReason) : (raise r s).run = .faulted r := rfl
@[simp] theorem raise_out (r : FaultReason) : (raise r s).out = s.out := rfl
@[simp] theorem raise_inPos (r : FaultReason) : (raise r s).inPos = s.inPos := rfl
@[simp] theorem raise_consoleIn (r : FaultReason) : (raise r s).consoleIn = s.consoleIn := rfl
@[simp] theorem raise_cfg (r : FaultReason) : (raise r s).cfg = s.cfg := rfl

/-! ### `halt` -/

@[simp] theorem halt_x : (halt s).x = s.x := rfl
@[simp] theorem halt_pc : (halt s).pc = s.pc := rfl
@[simp] theorem halt_sp : (halt s).sp = s.sp := rfl
@[simp] theorem halt_flags : (halt s).flags = s.flags := rfl
@[simp] theorem halt_mem : (halt s).mem = s.mem := rfl
@[simp] theorem halt_run : (halt s).run = .halted := rfl
@[simp] theorem halt_out : (halt s).out = s.out := rfl
@[simp] theorem halt_inPos : (halt s).inPos = s.inPos := rfl
@[simp] theorem halt_consoleIn : (halt s).consoleIn = s.consoleIn := rfl
@[simp] theorem halt_cfg : (halt s).cfg = s.cfg := rfl

/-! ### `consoleWrite` -/

@[simp] theorem consoleWrite_x (b : Byte) : (consoleWrite b s).x = s.x := rfl
@[simp] theorem consoleWrite_pc (b : Byte) : (consoleWrite b s).pc = s.pc := rfl
@[simp] theorem consoleWrite_sp (b : Byte) : (consoleWrite b s).sp = s.sp := rfl
@[simp] theorem consoleWrite_flags (b : Byte) : (consoleWrite b s).flags = s.flags := rfl
@[simp] theorem consoleWrite_mem (b : Byte) : (consoleWrite b s).mem = s.mem := rfl
@[simp] theorem consoleWrite_run (b : Byte) : (consoleWrite b s).run = s.run := rfl
@[simp] theorem consoleWrite_out (b : Byte) : (consoleWrite b s).out = s.out ++ [b] := rfl
@[simp] theorem consoleWrite_inPos (b : Byte) : (consoleWrite b s).inPos = s.inPos := rfl
@[simp] theorem consoleWrite_consoleIn (b : Byte) : (consoleWrite b s).consoleIn = s.consoleIn := rfl
@[simp] theorem consoleWrite_cfg (b : Byte) : (consoleWrite b s).cfg = s.cfg := rfl

/-! ### `deliverInput` -/

@[simp] theorem deliverInput_x (bs : List Byte) : (deliverInput bs s).x = s.x := rfl
@[simp] theorem deliverInput_pc (bs : List Byte) : (deliverInput bs s).pc = s.pc := rfl
@[simp] theorem deliverInput_sp (bs : List Byte) : (deliverInput bs s).sp = s.sp := rfl
@[simp] theorem deliverInput_flags (bs : List Byte) : (deliverInput bs s).flags = s.flags := rfl
@[simp] theorem deliverInput_mem (bs : List Byte) : (deliverInput bs s).mem = s.mem := rfl
@[simp] theorem deliverInput_run (bs : List Byte) : (deliverInput bs s).run = s.run := rfl
@[simp] theorem deliverInput_out (bs : List Byte) : (deliverInput bs s).out = s.out := rfl
@[simp] theorem deliverInput_inPos (bs : List Byte) : (deliverInput bs s).inPos = s.inPos := rfl
@[simp] theorem deliverInput_consoleIn (bs : List Byte) : (deliverInput bs s).consoleIn = s.consoleIn ++ bs := rfl
@[simp] theorem deliverInput_cfg (bs : List Byte) : (deliverInput bs s).cfg = s.cfg := rfl

/-! ### Reads of one register, one byte, one flag -/

theorem reg_eq_of_x {s t : State} (h : t.x = s.x) (r : Reg) : t.reg r = s.reg r := by simp [State.reg, h]

theorem readByte_eq_of_mem {s t : State} (h : t.mem = s.mem) (a : Word) : t.readByte a = s.readByte a := by
  simp [State.readByte, h]

@[simp] theorem reg_setReg_same (r : Reg) (v : Word) : (s.setReg r v).reg r = v := by
  simp [State.reg, State.setReg]

@[simp] theorem reg_setReg_other {r d : Reg} (h : r ≠ d) (v : Word) : (s.setReg d v).reg r = s.reg r := by
  have h' : ¬ d.val = r.val := fun e => h (Fin.ext e.symm)
  simp [State.reg, State.setReg, h']

@[simp] theorem reg_setPc (v : Word) (r' : Reg) : (s.setPc v).reg r' = s.reg r' := rfl
@[simp] theorem reg_setSp (v : Word) (r' : Reg) : (s.setSp v).reg r' = s.reg r' := rfl
@[simp] theorem reg_setFlags (v : Byte) (r' : Reg) : (s.setFlags v).reg r' = s.reg r' := rfl
@[simp] theorem reg_writeByte (a : Word) (b : Byte) (r' : Reg) : (s.writeByte a b).reg r' = s.reg r' := rfl
@[simp] theorem reg_raise (r : FaultReason) (r' : Reg) : (raise r s).reg r' = s.reg r' := rfl
@[simp] theorem reg_halt (r' : Reg) : (halt s).reg r' = s.reg r' := rfl
@[simp] theorem reg_consoleWrite (b : Byte) (r' : Reg) : (consoleWrite b s).reg r' = s.reg r' := rfl
@[simp] theorem reg_deliverInput (bs : List Byte) (r' : Reg) : (deliverInput bs s).reg r' = s.reg r' := rfl

@[simp] theorem readByte_setReg (r : Reg) (v : Word) (a' : Word) : (s.setReg r v).readByte a' = s.readByte a' := rfl
@[simp] theorem readByte_setPc (v : Word) (a' : Word) : (s.setPc v).readByte a' = s.readByte a' := rfl
@[simp] theorem readByte_setSp (v : Word) (a' : Word) : (s.setSp v).readByte a' = s.readByte a' := rfl
@[simp] theorem readByte_setFlags (v : Byte) (a' : Word) : (s.setFlags v).readByte a' = s.readByte a' := rfl
@[simp] theorem readByte_raise (r : FaultReason) (a' : Word) : (raise r s).readByte a' = s.readByte a' := rfl
@[simp] theorem readByte_halt (a' : Word) : (halt s).readByte a' = s.readByte a' := rfl
@[simp] theorem readByte_consoleWrite (b : Byte) (a' : Word) : (consoleWrite b s).readByte a' = s.readByte a' := rfl
@[simp] theorem readByte_deliverInput (bs : List Byte) (a' : Word) : (deliverInput bs s).readByte a' = s.readByte a' := rfl

end Sys2Proof.Machine
end

