-- ==== Sys2Proof/Laws/Flags.lean ====
section
/-! SUPPORT. The bits of the flag byte (10_state.md R14): each flag stands at its own position, every other bit is 0. -/

namespace Sys2Proof.Machine

theorem getLsbD_flagBit (k j : Fin 8) (b : Bool) : (flagBit k b).getLsbD j = (b && decide (j = k)) := by
  revert k j b; decide

theorem getLsbD_flagByte (p : FlagBits) (z c g : Bool) (j : Fin 8) :
    (flagByte p z c g).getLsbD j =
      ((z && decide (j = p.zero)) || (c && decide (j = p.carry)) || (g && decide (j = p.sign))) := by
  rw [flagByte, BitVec.getLsbD_or, BitVec.getLsbD_or, getLsbD_flagBit, getLsbD_flagBit, getLsbD_flagBit]

theorem flagByte_zero {p : FlagBits} (h : p.wellFormed) (z c g : Bool) : (flagByte p z c g).getLsbD p.zero = z := by
  rw [getLsbD_flagByte]; simp [h.1, h.2.1]

theorem flagByte_carry {p : FlagBits} (h : p.wellFormed) (z c g : Bool) : (flagByte p z c g).getLsbD p.carry = c := by
  rw [getLsbD_flagByte]; simp [h.1.symm, h.2.2]

theorem flagByte_sign {p : FlagBits} (h : p.wellFormed) (z c g : Bool) : (flagByte p z c g).getLsbD p.sign = g := by
  rw [getLsbD_flagByte]; simp [h.2.1.symm, h.2.2.symm]

theorem flagByte_unused (p : FlagBits) (z c g : Bool) {j : Fin 8} (hz : j ≠ p.zero) (hc : j ≠ p.carry)
    (hs : j ≠ p.sign) : (flagByte p z c g).getLsbD j = false := by
  rw [getLsbD_flagByte]; simp [hz, hc, hs]

/-! ### The three flags after a flag byte is written -/

theorem flagZ_setFlags {s : State} (h : s.cfg.flagBits.wellFormed) (z c g : Bool) :
    (s.setFlags (flagByte s.cfg.flagBits z c g)).flagZ = z := flagByte_zero h z c g

theorem flagC_setFlags {s : State} (h : s.cfg.flagBits.wellFormed) (z c g : Bool) :
    (s.setFlags (flagByte s.cfg.flagBits z c g)).flagC = c := flagByte_carry h z c g

theorem flagS_setFlags {s : State} (h : s.cfg.flagBits.wellFormed) (z c g : Bool) :
    (s.setFlags (flagByte s.cfg.flagBits z c g)).flagS = g := flagByte_sign h z c g

end Sys2Proof.Machine
end

