-- ==== Sys2Proof/Laws/Memory.lean ====
section
/-! SUPPORT. The laws of the byte array: a read after a write, and the canonical form that every write keeps. -/

namespace Sys2Proof.Machine

theorem Memory.read_filter (m : Memory) (a k : Nat) :
    Memory.read (m.filter (fun c => c.1 != a)) k = if k = a then Memory.unlisted else Memory.read m k := by
  induction m with
  | nil => simp [Memory.read]
  | cons c m ih =>
    by_cases hc : c.1 = a
    · rw [List.filter_cons_of_neg (by simp [hc]), ih]
      by_cases hk : k = a
      · simp [hk]
      · have : ¬ c.1 = k := fun e => hk (e.symm.trans hc)
        simp [hk, Memory.read, this]
    · rw [List.filter_cons_of_pos (by simp [hc])]
      by_cases hk : c.1 = k
      · have : ¬ k = a := fun e => hc (hk.trans e)
        simp [Memory.read, hk, this]
      · simp [Memory.read, hk, ih]

theorem Memory.read_insertCell (c : Host.Cell) (m : Memory) (k : Nat) (h : Memory.read m c.1 = Memory.unlisted)
    (hm : ∀ d ∈ m, d.1 ≠ c.1) :
    Memory.read (Memory.insertCell c m) k = if k = c.1 then c.2 else Memory.read m k := by
  induction m with
  | nil => by_cases hk : k = c.1 <;> simp [Memory.insertCell, Memory.read, hk, eq_comm]
  | cons d m ih =>
    have hd : d.1 ≠ c.1 := hm d (by simp)
    have ih := ih (by simpa [Memory.read, hd] using h) (fun e he => hm e (by simp [he]))
    simp only [Memory.insertCell]
    split
    · by_cases hk : k = c.1 <;> simp [Memory.read, hk, eq_comm]
    · by_cases hk : d.1 = k
      · have : ¬ k = c.1 := fun e => hd (hk.trans e)
        simp [Memory.read, hk, this]
      · simp [Memory.read, hk, ih]

/-- A read after a write gives the value written at its address, and what was there before at every other. -/
theorem Memory.read_write (m : Memory) (a : Nat) (b : Byte) (k : Nat) :
    Memory.read (Memory.write m a b) k = if k = a then b else Memory.read m k := by
  have hf := Memory.read_filter m a
  simp only [Memory.write]
  split
  · rename_i hb
    rw [hf k, hb]
  · rw [Memory.read_insertCell _ _ _ (by rw [hf]; simp) (by simp), hf k]
    by_cases hk : k = a <;> simp [hk]

theorem readByte_writeByte (s : State) (a k : Word) (b : Byte) :
    (s.writeByte a b).readByte k = if k = a then b else s.readByte k := by
  simp only [State.readByte, writeByte_mem, Memory.read_write, BitVec.toNat_inj]

@[simp] theorem readByte_writeByte_same (s : State) (a : Word) (b : Byte) : (s.writeByte a b).readByte a = b := by
  simp [readByte_writeByte]

@[simp] theorem readByte_writeByte_other (s : State) {a k : Word} (h : k ≠ a) (b : Byte) :
    (s.writeByte a b).readByte k = s.readByte k := by simp [readByte_writeByte, h]

theorem Memory.mem_insertCell (c d : Host.Cell) (m : Memory) : d ∈ Memory.insertCell c m ↔ d = c ∨ d ∈ m := by
  induction m with
  | nil => simp [Memory.insertCell]
  | cons e m ih =>
    simp only [Memory.insertCell]
    split
    · simp
    · simp only [List.mem_cons, ih]; tauto

theorem Memory.pairwise_insertCell (c : Host.Cell) (m : Memory) (h : m.Pairwise (fun c d => c.1 < d.1))
    (hm : ∀ d ∈ m, d.1 ≠ c.1) : (Memory.insertCell c m).Pairwise (fun c d => c.1 < d.1) := by
  induction m with
  | nil => simp [Memory.insertCell]
  | cons e m ih =>
    have he := hm e (by simp)
    rw [List.pairwise_cons] at h
    simp only [Memory.insertCell]
    split
    · rename_i hlt
      refine List.pairwise_cons.2 ⟨?_, List.pairwise_cons.2 h⟩
      intro d hd
      rcases List.mem_cons.1 hd with rfl | hd
      · exact hlt
      · exact hlt.trans (h.1 d hd)
    · refine List.pairwise_cons.2 ⟨?_, ih h.2 (fun d hd => hm d (by simp [hd]))⟩
      intro d hd
      rcases (Memory.mem_insertCell c d m).1 hd with rfl | hd
      · omega
      · exact h.1 d hd

/-- Every write of an address of the space keeps the canonical form. -/
theorem Memory.wf_write {m : Memory} (h : Memory.wf m) {a : Nat} (ha : a < 65536) (b : Byte) :
    Memory.wf (Memory.write m a b) := by
  have hrest : Memory.wf (m.filter (fun c => c.1 != a)) :=
    ⟨h.1.filter _, fun c hc => h.2 c (List.mem_filter.1 hc).1⟩
  simp only [Memory.write]
  split
  · exact hrest
  · rename_i hb
    refine ⟨Memory.pairwise_insertCell _ _ hrest.1 (by simp), fun c hc => ?_⟩
    rcases (Memory.mem_insertCell _ c _).1 hc with rfl | hc
    · exact ⟨ha, hb⟩
    · exact hrest.2 c hc

theorem wf_writeByte {s : State} (h : Memory.wf s.mem) (a : Word) (b : Byte) : Memory.wf (s.writeByte a b).mem := by
  rw [writeByte_mem]; exact Memory.wf_write h a.isLt b

/-- Writing a list of bytes that fits in the space keeps the canonical form. -/
theorem Memory.wf_writeBytes {m : Memory} (h : Memory.wf m) (a : Nat) (bs : List Byte) (hb : a + bs.length ≤ 65536) :
    Memory.wf (Memory.writeBytes m a bs) := by
  induction bs generalizing m a with
  | nil => exact h
  | cons b bs ih =>
    rw [List.length_cons] at hb
    exact ih (Memory.wf_write h (by omega) b) (a + 1) (by omega)

/-- What the bytes of memory are after a list of bytes has been written. -/
theorem Memory.read_writeBytes (m : Memory) (a : Nat) (bs : List Byte) (k : Nat) :
    Memory.read (Memory.writeBytes m a bs) k =
      if a ≤ k then (bs[k - a]?).getD (Memory.read m k) else Memory.read m k := by
  induction bs generalizing m a with
  | nil => simp [Memory.writeBytes]
  | cons b bs ih =>
    rw [Memory.writeBytes, ih, Memory.read_write]
    rcases Nat.lt_trichotomy k a with h | h | h
    · simp [show ¬ a + 1 ≤ k by omega, show ¬ a ≤ k by omega, show ¬ k = a by omega]
    · subst h; simp
    · obtain ⟨j, hj⟩ : ∃ j, k - a = j + 1 := ⟨k - a - 1, by omega⟩
      have hj' : k - (a + 1) = j := by omega
      simp [show a + 1 ≤ k by omega, show a ≤ k by omega, show ¬ k = a by omega, hj, hj']

end Sys2Proof.Machine
end

