-- ==== Sys2Proof/Laws/Ops.lean ====
section
/-! SUPPORT. For each shared operation, one lemma that says everything it can do; and what each answers where its
conditions are met. -/

namespace Sys2Proof.Machine

/-! ### The constants as numbers -/

@[simp] theorem ramStart_toNat : ramStart.toNat = 0x4000 := rfl
@[simp] theorem stackBase_toNat : stackBase.toNat = 0xDEFF := rfl
@[simp] theorem ioRx_toNat : ioRx.toNat = 0xFF00 := rfl
@[simp] theorem ioTx_toNat : ioTx.toNat = 0xFF01 := rfl
@[simp] theorem lastAddress_toNat : lastAddress.toNat = 0xFFFF := rfl

theorem lt_ramStart_iff (a : Word) : a < ramStart ↔ a.toNat < 0x4000 := Iff.rfl
theorem ramStart_le_iff (a : Word) : ramStart ≤ a ↔ 0x4000 ≤ a.toNat := Iff.rfl
theorem le_ramStart_iff (a : Word) : a ≤ ramStart ↔ a.toNat ≤ 0x4000 := Iff.rfl
theorem stackBase_lt_iff (a : Word) : stackBase < a ↔ 0xDEFF < a.toNat := Iff.rfl
theorem stackBase_le_iff (a : Word) : stackBase ≤ a ↔ 0xDEFF ≤ a.toNat := Iff.rfl

/-! ### Memory access -/

@[simp] theorem memRead_byte (a : Word) (s : State) : memRead a .byte s = zext16 (s.readByte a) := rfl

@[simp] theorem memRead_word (a : Word) (s : State) :
    memRead a .word s = joinBytes (s.readByte (a + 1)) (s.readByte a) := rfl

@[simp] theorem memWrite_byte (a v : Word) (s : State) : memWrite a .byte v s = s.writeByte a (lowByte v) := rfl

@[simp] theorem memWrite_word (a v : Word) (s : State) :
    memWrite a .word v s = (s.writeByte a (lowByte v)).writeByte (a + 1) (highByte v) := rfl

theorem toNat_zext16 (b : Byte) : (zext16 b).toNat = b.toNat := by
  have := b.isLt
  simp only [zext16, BitVec.toNat_setWidth]; omega

theorem word_ne_add_one (a : Word) : a ≠ a + 1 := by
  intro h; bv_omega

/-- A memory write changes the memory alone. -/
theorem memWrite_eq (a : Word) (w : Width) (v : Word) (s : State) :
    memWrite a w v s = { s with mem := (memWrite a w v s).mem } := by cases w <;> rfl

/-- A memory write leaves every byte but its own as it was. -/
theorem readByte_memWrite_other (a : Word) (w : Width) (v : Word) (s : State) {k : Word} (h : k ≠ a)
    (h' : w = .word → k ≠ a + 1) : (memWrite a w v s).readByte k = s.readByte k := by
  cases w
  · rw [memWrite_byte, readByte_writeByte_other s h]
  · rw [memWrite_word, readByte_writeByte_other _ (h' rfl), readByte_writeByte_other s h]

theorem wf_memWrite {s : State} (h : Memory.wf s.mem) (a : Word) (w : Width) (v : Word) :
    Memory.wf (memWrite a w v s).mem := by
  cases w
  · exact wf_writeByte h _ _
  · exact wf_writeByte (wf_writeByte h _ _) _ _

/-! ### The load path -/

/-- Everything a load can do: take a console byte at RX, give the value of RX_EOI there, raise AddressFault, wait, or read
memory (20_memory.md R42, R46). -/
theorem dataLoad_cases (a : Word) (w : Width) (s : State) :
    (∃ b, a = ioRx ∧ s.consoleIn[s.inPos]? = some b ∧
      dataLoad a w s = .done (zext16 b) { s with inPos := s.inPos + 1 }) ∨
    (∃ v, a = ioRx ∧ s.consoleIn[s.inPos]? = none ∧ s.cfg.rxEoi = .value v ∧ dataLoad a w s = .done v s) ∨
    (a = ioRx ∧ s.consoleIn[s.inPos]? = none ∧ s.cfg.rxEoi = .block ∧ dataLoad a w s = .blocked) ∨
    (w = .word ∧ a = lastAddress ∧ dataLoad a w s = .raised (.address a)) ∨
    (a ≠ ioRx ∧ ¬ (w = .word ∧ a = lastAddress) ∧ dataLoad a w s = .done (memRead a w s) s) := by
  unfold dataLoad consoleRead
  by_cases ha : a = ioRx
  · rw [if_pos ha]
    cases hc : s.consoleIn[s.inPos]? with
    | some b => exact .inl ⟨b, ha, rfl, rfl⟩
    | none =>
      cases hr : s.cfg.rxEoi with
      | block => exact .inr (.inr (.inl ⟨ha, rfl, rfl, rfl⟩))
      | value v => exact .inr (.inl ⟨v, ha, rfl, rfl, rfl⟩)
  · rw [if_neg ha]
    by_cases hl : w = .word ∧ a = lastAddress
    · rw [if_pos hl]; exact .inr (.inr (.inr (.inl ⟨hl.1, hl.2, rfl⟩)))
    · rw [if_neg hl]; exact .inr (.inr (.inr (.inr ⟨ha, hl, rfl⟩)))

/-- A load away from RX and the last address reads memory (R42). -/
theorem dataLoad_memory {a : Word} {w : Width} (s : State) (ha : a ≠ 0xFF00) (hl : w = .word → a ≠ 0xFFFF) :
    dataLoad a w s = .done (memRead a w s) s := by
  rcases dataLoad_cases a w s with ⟨_, h, -⟩ | ⟨_, h, -⟩ | ⟨h, -⟩ | ⟨h, h', -⟩ | ⟨-, -, h⟩
  · exact absurd h ha
  · exact absurd h ha
  · exact absurd h ha
  · exact absurd h' (hl h)
  · exact h

/-- A load at RX with input left (R44). -/
theorem dataLoad_console {s : State} {b : Byte} (w : Width) (h : s.consoleIn[s.inPos]? = some b) :
    dataLoad 0xFF00 w s = .done (zext16 b) { s with inPos := s.inPos + 1 } := by
  unfold dataLoad consoleRead
  rw [if_pos (by decide), h]

/-! ### The store path -/

/-- Everything a store can do (20_memory.md R43). -/
theorem dataStore_cases (a : Word) (w : Width) (v : Word) (s : State) :
    (a < ramStart ∧ dataStore a w v s = .raised (.writeProtect a)) ∨
    (a = ioTx ∧ w = .word ∧ 0x00FF < v ∧ s.cfg.txWide = .fault ∧ dataStore a w v s = .raised (.io a v)) ∨
    (a = ioTx ∧ ¬ (w = .word ∧ 0x00FF < v ∧ s.cfg.txWide = .fault) ∧
      dataStore a w v s = .done () (consoleWrite (lowByte v) s)) ∨
    (w = .word ∧ a = lastAddress ∧ dataStore a w v s = .raised (.address a)) ∨
    (ramStart ≤ a ∧ a ≠ ioTx ∧ ¬ (w = .word ∧ a = lastAddress) ∧
      dataStore a w v s = .done () (memWrite a w v s)) := by
  unfold dataStore
  by_cases hg : a < ramStart
  · rw [if_pos hg]; exact .inl ⟨hg, rfl⟩
  · rw [if_neg hg]
    by_cases ht : a = ioTx
    · rw [if_pos ht]
      by_cases hf : w = .word ∧ 0x00FF < v ∧ s.cfg.txWide = .fault
      · rw [if_pos hf]; exact .inr (.inl ⟨ht, hf.1, hf.2.1, hf.2.2, rfl⟩)
      · rw [if_neg hf]; exact .inr (.inr (.inl ⟨ht, hf, rfl⟩))
    · rw [if_neg ht]
      by_cases hl : w = .word ∧ a = lastAddress
      · rw [if_pos hl]; exact .inr (.inr (.inr (.inl ⟨hl.1, hl.2, rfl⟩)))
      · rw [if_neg hl]
        exact .inr (.inr (.inr (.inr ⟨BitVec.not_lt.1 hg, ht, hl, rfl⟩)))

/-- A store to ordinary memory (R43). -/
theorem dataStore_memory {a : Word} {w : Width} (v : Word) (s : State) (hg : 0x4000 ≤ a.toNat) (ht : a ≠ 0xFF01)
    (hl : w = .word → a ≠ 0xFFFF) : dataStore a w v s = .done () (memWrite a w v s) := by
  rcases dataStore_cases a w v s with ⟨h, -⟩ | ⟨h, -⟩ | ⟨h, -⟩ | ⟨h, h', -⟩ | ⟨-, -, -, h⟩
  · rw [lt_ramStart_iff] at h; omega
  · exact absurd h ht
  · exact absurd h ht
  · exact absurd h' (hl h)
  · exact h

/-- A store to program space (R43, R40). -/
theorem dataStore_guard {a : Word} (w : Width) (v : Word) (s : State) (h : a.toNat < 0x4000) :
    dataStore a w v s = .raised (.writeProtect a) := by
  unfold dataStore
  rw [if_pos ((lt_ramStart_iff a).2 h)]

/-- A store to TX that is taken (R45). -/
theorem dataStore_console {w : Width} {v : Word} {s : State}
    (h : w = .word → v.toNat ≤ 0xFF ∨ s.cfg.txWide = .truncate) :
    dataStore 0xFF01 w v s = .done () (consoleWrite (lowByte v) s) := by
  unfold dataStore
  rw [if_neg (by decide), if_pos (by decide), if_neg]
  rintro ⟨hw, hv, ht⟩
  have hv : 0xFF < v.toNat := hv
  rcases h hw with h | h
  · omega
  · rw [h] at ht; cases ht

/-! ### The stack -/

/-- The state after a push (20_memory.md R50). -/
def pushed (v : Word) (s : State) : State :=
  ((s.writeByte s.sp (lowByte v)).writeByte (s.sp - 1) (highByte v)).setSp (s.sp - 2)

/-- Everything a push can do (R50). -/
theorem push16_cases (v : Word) (s : State) :
    (stackBase < s.sp ∧ push16 v s = .raised (.stack .guard s.sp)) ∨
    (s.sp ≤ ramStart ∧ push16 v s = .raised (.stack .overflow s.sp)) ∨
    (ramStart < s.sp ∧ s.sp ≤ stackBase ∧ push16 v s = .done () (pushed v s)) := by
  unfold push16
  by_cases h : stackBase < s.sp
  · rw [if_pos h]; exact .inl ⟨h, rfl⟩
  · rw [if_neg h]
    by_cases h' : s.sp ≤ ramStart
    · rw [if_pos h']; exact .inr (.inl ⟨h', rfl⟩)
    · rw [if_neg h']; exact .inr (.inr ⟨BitVec.not_le.1 h', BitVec.not_lt.1 h, rfl⟩)

/-- A push within the stack's bounds (R50). -/
theorem push16_done (v : Word) {s : State} (h : 0x4000 < s.sp.toNat) (h' : s.sp.toNat ≤ 0xDEFF) :
    push16 v s = .done () (pushed v s) := by
  rcases push16_cases v s with ⟨hc, -⟩ | ⟨hc, -⟩ | ⟨-, -, hc⟩
  · rw [stackBase_lt_iff] at hc; omega
  · rw [le_ramStart_iff] at hc; omega
  · exact hc

/-- Everything a pop can do (R51). -/
theorem pop16_cases (s : State) :
    (stackBase ≤ s.sp ∧ pop16 s = .raised (.stack .underflow s.sp)) ∨
    (s.sp < stackBase ∧
      pop16 s = .done (joinBytes (s.readByte (s.sp + 1)) (s.readByte (s.sp + 2))) (s.setSp (s.sp + 2))) := by
  unfold pop16
  by_cases h : stackBase ≤ s.sp
  · rw [if_pos h]; exact .inl ⟨h, rfl⟩
  · rw [if_neg h]; exact .inr ⟨BitVec.not_le.1 h, rfl⟩

/-- A pop from a stack that is not empty (R51). -/
theorem pop16_done {s : State} (h : s.sp.toNat < 0xDEFF) :
    pop16 s = .done (joinBytes (s.readByte (s.sp + 1)) (s.readByte (s.sp + 2))) (s.setSp (s.sp + 2)) := by
  rcases pop16_cases s with ⟨hc, -⟩ | ⟨-, hc⟩
  · rw [stackBase_le_iff] at hc; omega
  · exact hc

theorem sp_ne_sub_one (a : Word) : a ≠ a - 1 := by
  intro h; bv_omega

@[simp] theorem pushed_x (v : Word) (s : State) : (pushed v s).x = s.x := rfl
@[simp] theorem pushed_pc (v : Word) (s : State) : (pushed v s).pc = s.pc := rfl
@[simp] theorem pushed_sp (v : Word) (s : State) : (pushed v s).sp = s.sp - 2 := rfl
@[simp] theorem pushed_flags (v : Word) (s : State) : (pushed v s).flags = s.flags := rfl
@[simp] theorem pushed_run (v : Word) (s : State) : (pushed v s).run = s.run := rfl
@[simp] theorem pushed_out (v : Word) (s : State) : (pushed v s).out = s.out := rfl
@[simp] theorem pushed_inPos (v : Word) (s : State) : (pushed v s).inPos = s.inPos := rfl
@[simp] theorem pushed_consoleIn (v : Word) (s : State) : (pushed v s).consoleIn = s.consoleIn := rfl
@[simp] theorem pushed_cfg (v : Word) (s : State) : (pushed v s).cfg = s.cfg := rfl
@[simp] theorem reg_pushed (v : Word) (s : State) (r : Reg) : (pushed v s).reg r = s.reg r := rfl

/-- The bytes after a push: the low byte at the old SP, the high byte below it, every other byte as it was (R49). -/
theorem readByte_pushed (v : Word) (s : State) (k : Word) :
    (pushed v s).readByte k =
      if k = s.sp - 1 then highByte v else if k = s.sp then lowByte v else s.readByte k := by
  simp [pushed, readByte_writeByte]

theorem wf_pushed {s : State} (h : Memory.wf s.mem) (v : Word) : Memory.wf (pushed v s).mem :=
  wf_writeByte (wf_writeByte h _ _) _ _

/-! ### Ends of an instruction -/

@[simp] theorem finish_done {α : Type} (s : State) (k : α → State → State) (v : α) (t : State) :
    (Access.done v t).finish s k = .next (k v t) := rfl

@[simp] theorem finish_raised {α : Type} (s : State) (k : α → State → State) (r : FaultReason) :
    (Access.raised r : Access α).finish s k = .next (raise r s) := rfl

@[simp] theorem finish_blocked {α : Type} (s : State) (k : α → State → State) :
    (Access.blocked : Access α).finish s k = .fault .consoleBlocked := rfl

@[simp] theorem value_register (r : Reg) (s : State) : (Operand.register r).value s = s.reg r := rfl

@[simp] theorem value_immediate (v : Word) (s : State) : (Operand.immediate v).value s = v := rfl

/-- The bounds check changes the run status alone (40_run_loop.md R84). -/
theorem boundsCheck_eq (t : State) : boundsCheck t = { t with run := (boundsCheck t).run } := by
  unfold boundsCheck; split <;> rfl

@[simp] theorem boundsCheck_x (t : State) : (boundsCheck t).x = t.x := by rw [boundsCheck_eq]
@[simp] theorem boundsCheck_pc (t : State) : (boundsCheck t).pc = t.pc := by rw [boundsCheck_eq]
@[simp] theorem boundsCheck_sp (t : State) : (boundsCheck t).sp = t.sp := by rw [boundsCheck_eq]
@[simp] theorem boundsCheck_flags (t : State) : (boundsCheck t).flags = t.flags := by rw [boundsCheck_eq]
@[simp] theorem boundsCheck_mem (t : State) : (boundsCheck t).mem = t.mem := by rw [boundsCheck_eq]
@[simp] theorem boundsCheck_out (t : State) : (boundsCheck t).out = t.out := by rw [boundsCheck_eq]
@[simp] theorem boundsCheck_inPos (t : State) : (boundsCheck t).inPos = t.inPos := by rw [boundsCheck_eq]
@[simp] theorem boundsCheck_consoleIn (t : State) : (boundsCheck t).consoleIn = t.consoleIn := by rw [boundsCheck_eq]
@[simp] theorem boundsCheck_cfg (t : State) : (boundsCheck t).cfg = t.cfg := by rw [boundsCheck_eq]
@[simp] theorem readByte_boundsCheck (t : State) (a : Word) : (boundsCheck t).readByte a = t.readByte a :=
  readByte_eq_of_mem (boundsCheck_mem t) a

end Sys2Proof.Machine
end

