-- ==== Sys2Proof/Laws/Exec.lean ====
section
/-! SUPPORT. What an instruction can do, said once: every meaning ends in one of the cases of `Ends`, and the rules about
the whole machine follow from them without unfolding a meaning again. -/

namespace Sys2Proof.Machine

/-- Every way the instruction `i` executed from `s` can end. -/
inductive Ends (i : Instr) (s : State) : Host.Outcome State Fault Refusal → Prop where
  /-- Only registers, PC and the flags may have changed: a computation, a move, a load from memory, a jump. -/
  | inside (t : State) (h : t = { s with x := t.x, pc := t.pc, flags := t.flags }) : Ends i s (.next t)
  /-- HLT halted the core. -/
  | halts (h : i = .hlt) : Ends i s (.next (halt s))
  /-- A fault was raised. -/
  | raises (r : FaultReason) : Ends i s (.next (raise r s))
  /-- A store wrote ordinary memory. -/
  | memory (a : Word) (w : Width) (v : Word) (hg : ramStart ≤ a) (ht : a ≠ ioTx)
      (hl : ¬ (w = .word ∧ a = lastAddress)) : Ends i s (.next (memWrite a w v s))
  /-- A store emitted a console byte. -/
  | emit (b : Byte) : Ends i s (.next (consoleWrite b s))
  /-- A load took a console byte. -/
  | take (d : Reg) (b : Byte) (h : s.consoleIn[s.inPos]? = some b) :
      Ends i s (.next ({ s with inPos := s.inPos + 1 }.setReg d (zext16 b)))
  /-- A value was pushed, and PC may have changed. -/
  | push (v : Word) (t : State) (hg : ramStart < s.sp) (hb : s.sp ≤ stackBase) (h : t = { pushed v s with pc := t.pc }) :
      Ends i s (.next t)
  /-- A value was popped, into a register or PC. -/
  | pop (t : State) (hb : s.sp < stackBase) (h : t = { s with x := t.x, pc := t.pc, sp := s.sp + 2 }) : Ends i s (.next t)
  /-- A load of RX waits for the console. -/
  | wait (hi : LoadsRx i s) (h : s.consoleIn[s.inPos]? = none) (hr : s.cfg.rxEoi = .block) : Ends i s (.fault .consoleBlocked)

variable {i : Instr}

theorem ends_loadInto (d : Reg) (ea : Operand) (w : Width) (s : State) (hi : ea.value s = 0xFF00 → LoadsRx i s) :
    Ends i s (loadInto d ea w s) := by
  unfold loadInto
  rcases dataLoad_cases (ea.value s) w s with
    ⟨b, -, hb, h⟩ | ⟨v, -, -, -, h⟩ | ⟨ha, hb, hr, h⟩ | ⟨-, -, h⟩ | ⟨-, -, h⟩ <;> rw [h]
  · exact .take d b hb
  · exact .inside _ rfl
  · exact .wait (hi ha) hb hr
  · exact .raises _
  · exact .inside _ rfl

theorem ends_storeAt (ea : Operand) (w : Width) (v : Operand) (s : State) : Ends i s (storeAt ea w v s) := by
  unfold storeAt
  rcases dataStore_cases (ea.value s) w (v.value s) s with
    ⟨-, h⟩ | ⟨-, -, -, -, h⟩ | ⟨-, -, h⟩ | ⟨-, -, h⟩ | ⟨hg, ht, hl, h⟩ <;> rw [h]
  · exact .raises _
  · exact .raises _
  · exact .emit _
  · exact .raises _
  · exact .memory _ _ _ hg ht hl

theorem ends_push (v : Word) (s : State) {k : State → State} (hk : ∀ t, k t = { t with pc := (k t).pc }) :
    Ends i s ((push16 v s).finish s (fun _ t => k t)) := by
  rcases push16_cases v s with ⟨-, h⟩ | ⟨-, h⟩ | ⟨hg, hb, h⟩ <;> rw [h]
  · exact .raises _
  · exact .raises _
  · exact .push v _ hg hb (hk _)

theorem ends_pop (s : State) {k : Word → State → State} (hk : ∀ v t, k v t = { t with x := (k v t).x, pc := (k v t).pc }) :
    Ends i s ((pop16 s).finish s k) := by
  rcases pop16_cases s with ⟨-, h⟩ | ⟨hg, h⟩ <;> rw [h]
  · exact .raises _
  · exact .pop _ hg (hk _ _)

theorem ends_divBy (d : Reg) (b : Word) (s : State) : Ends i s (divBy d b s) := by
  unfold divBy
  split
  · exact .raises _
  · exact .inside _ rfl

theorem ends_jumpIf (taken : Bool) (v : Word) (s : State) : Ends i s (jumpIf taken v s) := by
  cases taken <;> exact .inside _ rfl

/-- Every instruction, from every state, ends in one of these ways. -/
theorem exec_ends (i : Instr) (s : State) : Ends i s (exec i s) := by
  cases i with
  | stordr | stormi | stormr | storbdr | storbmi | storbmr => exact ends_storeAt _ _ _ s
  | loadrd d v => exact ends_loadInto _ (.immediate v) _ s fun h => ⟨d, d, .inl (by rw [← h, value_immediate])⟩
  | loadbrd d v => exact ends_loadInto _ (.immediate v) _ s fun h => ⟨d, d, .inr (.inl (by rw [← h, value_immediate]))⟩
  | loadrm d c => exact ends_loadInto _ (.register c) _ s fun h => ⟨d, c, .inr (.inr ⟨h, .inl rfl⟩)⟩
  | loadbrm d c => exact ends_loadInto _ (.register c) _ s fun h => ⟨d, c, .inr (.inr ⟨h, .inr rfl⟩)⟩
  | pushr a => exact ends_push (s.reg a) s (k := fun t => t) (fun _ => rfl)
  | call v => exact ends_push s.pc s (k := fun t => t.setPc v) (fun _ => rfl)
  | popr a => exact ends_pop s (k := fun v t => t.setReg a v) (fun _ _ => rfl)
  | ret => exact ends_pop s (k := fun v t => t.setPc v) (fun _ _ => rfl)
  | divrr | divri => exact ends_divBy _ _ s
  | jmp | jmz | jnz | jmc | jms => exact ends_jumpIf _ _ s
  | hlt => exact .halts rfl
  | nop | cmprr | cmpri | movrr | movri | addrr | addri | subrr | subri | mulrr | mulri | incr | decr
  | andrr | andri | orrr | orri | xorrr | xorri | not | shr | shl => exact .inside _ rfl

/-- What `Ends` says of a next state. -/
theorem exec_next_ends {i : Instr} {s t : State} (hn : exec i s = .next t) : Ends i s (.next t) := hn ▸ exec_ends i s

/-- An instruction leaves the run status alone, or is HLT and halts, or raises a fault and does nothing else. -/
theorem exec_run {i : Instr} {s t : State} (hn : exec i s = .next t) :
    t.run = s.run ∨ (i = .hlt ∧ t = halt s) ∨ ∃ r, t = raise r s := by
  cases exec_next_ends hn with
  | inside _ h => rw [h]; exact .inl rfl
  | halts h => exact .inr (.inl ⟨h, rfl⟩)
  | raises r => exact .inr (.inr ⟨r, rfl⟩)
  | memory a w v => rw [memWrite_eq]; exact .inl rfl
  | emit b => exact .inl rfl
  | take d b => exact .inl rfl
  | push v _ _ _ h => rw [h]; exact .inl rfl
  | pop _ _ h => rw [h]; exact .inl rfl

/-- No instruction is refused. -/
theorem exec_ne_refused (i : Instr) (s : State) (r : Refusal) : exec i s ≠ .refused r := by
  intro h
  have := exec_ends i s
  rw [h] at this
  cases this

/-- Only the wait of a load of RX for the console stops an instruction (20_memory.md R46). -/
theorem exec_fault {i : Instr} {s : State} {r : Fault} (hf : exec i s = .fault r) :
    r = .consoleBlocked ∧ LoadsRx i s ∧ s.consoleIn[s.inPos]? = none ∧ s.cfg.rxEoi = .block := by
  have := exec_ends i s
  rw [hf] at this
  cases this with
  | wait hi h hr => exact ⟨rfl, hi, h, hr⟩

/-- No instruction changes the parameters of the run (00_scope.md R6). -/
theorem exec_keeps_parameters {i : Instr} {s t : State} (hn : exec i s = .next t) :
    t.cfg = s.cfg ∧ t.consoleIn = s.consoleIn := by
  cases exec_next_ends hn with
  | inside _ h => rw [h]; exact ⟨rfl, rfl⟩
  | halts _ => exact ⟨rfl, rfl⟩
  | raises r => exact ⟨rfl, rfl⟩
  | memory a w v => rw [memWrite_eq]; exact ⟨rfl, rfl⟩
  | emit b => exact ⟨rfl, rfl⟩
  | take d b => exact ⟨rfl, rfl⟩
  | push v _ _ _ h => rw [h]; exact ⟨rfl, rfl⟩
  | pop _ _ h => rw [h]; exact ⟨rfl, rfl⟩

/-- No instruction writes a byte of program space (20_memory.md R43, R50). -/
theorem exec_keeps_program_space {i : Instr} {s t : State} (hn : exec i s = .next t) {k : Word}
    (hk : k.toNat < 0x4000) : t.readByte k = s.readByte k := by
  cases exec_next_ends hn with
  | inside _ h => rw [h]; rfl
  | halts _ => rfl
  | raises r => rfl
  | memory a w v hg _ hl =>
    rw [ramStart_le_iff] at hg
    refine readByte_memWrite_other _ _ _ _ (by bv_omega) fun hw => ?_
    have : a.toNat ≠ 0xFFFF := fun e => hl ⟨hw, BitVec.eq_of_toNat_eq e⟩
    bv_omega
  | emit b => rfl
  | take d b => rfl
  | push v _ hg _ h =>
    have hg : 0x4000 < s.sp.toNat := hg
    have e : t.readByte k = (pushed v s).readByte k := by rw [h]; rfl
    rw [e, readByte_pushed, if_neg (by bv_omega), if_neg (by bv_omega)]
  | pop _ _ h => rw [h]; rfl

/-- Every instruction keeps the memory's canonical form. -/
theorem exec_keeps_wf {i : Instr} {s t : State} (hn : exec i s = .next t) (hw : Memory.wf s.mem) :
    Memory.wf t.mem := by
  cases exec_next_ends hn with
  | inside _ h => rw [h]; exact hw
  | halts _ => exact hw
  | raises r => exact hw
  | memory a w v => exact wf_memWrite hw _ _ _
  | emit b => exact hw
  | take d b => exact hw
  | push v _ _ _ h => rw [h]; exact wf_pushed hw v
  | pop _ _ h => rw [h]; exact hw

end Sys2Proof.Machine
end

