-- ==== Sys2Proof/Laws/Step.lean ====
section
/-! SUPPORT. What a step can do, said once (40_run_loop.md R80), and how the bytes at PC determine it. -/

namespace Sys2Proof.Machine

/-! ### Bytes at PC -/

/-- The fetched bytes begin with the bytes that stand at PC. -/
theorem fetchBytes_of_bytesAtPc {s : State} {bytes : List Byte} (h : BytesAtPc s bytes) (hl : bytes.length ≤ 4) :
    ∃ more, fetchBytes s = bytes ++ more := by
  rcases bytes with _ | ⟨b0, _ | ⟨b1, _ | ⟨b2, _ | ⟨b3, _ | ⟨b4, bs⟩⟩⟩⟩⟩
  · exact ⟨_, rfl⟩
  all_goals have h0 := h 0 (by simp)
  all_goals simp only [BitVec.add_zero, List.getElem_cons_zero] at h0
  · exact ⟨_, by rw [fetchBytes, h0]; rfl⟩
  all_goals have h1 := h 1 (by simp)
  all_goals simp only [List.getElem_cons_zero, List.getElem_cons_succ] at h1
  · exact ⟨_, by rw [fetchBytes, h0, show s.readByte (s.pc + 1) = b1 from h1]; rfl⟩
  all_goals have h2 := h 2 (by simp)
  all_goals simp only [List.getElem_cons_zero, List.getElem_cons_succ] at h2
  · exact ⟨_, by rw [fetchBytes, h0, show s.readByte (s.pc + 1) = b1 from h1,
      show s.readByte (s.pc + 2) = b2 from h2]; rfl⟩
  all_goals have h3 := h 3 (by simp)
  all_goals simp only [List.getElem_cons_zero, List.getElem_cons_succ] at h3
  · exact ⟨_, by rw [fetchBytes, h0, show s.readByte (s.pc + 1) = b1 from h1,
      show s.readByte (s.pc + 2) = b2 from h2, show s.readByte (s.pc + 3) = b3 from h3, List.append_nil]⟩
  · simp only [List.length_cons] at hl; omega

/-- The fetched bytes stand at PC. -/
theorem bytesAtPc_fetchBytes (s : State) (n : Nat) : BytesAtPc s ((fetchBytes s).take n) := by
  intro k hk
  rw [List.getElem_take]
  have hk4 : k < 4 := by rw [List.length_take] at hk; simp [fetchBytes] at hk; omega
  match k, hk4 with
  | 0, _ => simp [fetchBytes]
  | 1, _ => rfl
  | 2, _ => rfl
  | 3, _ => rfl

/-! ### The step -/

/-- The run status after the bounds check of an instruction that completed normally (40_run_loop.md R84). -/
theorem boundsCheck_run {t : State} (h : t.run = .running) : (boundsCheck t).run = statusAt t.pc := by
  unfold boundsCheck statusAt
  by_cases hp : t.pc < ramStart
  · rw [if_neg (by rintro ⟨-, hc⟩; exact absurd hp (BitVec.not_lt.2 hc)), if_pos hp, h]
  · rw [if_pos ⟨h, BitVec.not_lt.1 hp⟩, if_neg hp]; rfl

theorem step_of_fetch_outside {s : State} (hr : s.run = .running) (hp : 0x4000 ≤ s.pc.toNat) :
    step s = .next (raise (.bounds s.pc) s) := by
  unfold step
  rw [hr]
  exact if_pos ((ramStart_le_iff _).2 hp)

theorem step_of_error {s : State} {e : DecodeError} (hr : s.run = .running) (hp : s.pc.toNat < 0x4000)
    (hd : decode s.cfg.opc (fetchBytes s) = .error e) : step s = .next (decodeFault s) := by
  unfold step
  rw [hr]
  simp only [ramStart_le_iff, if_neg (Nat.not_le.2 hp), hd]

theorem step_of_decode {s : State} {i : Instr} {rest : List Byte} (hr : s.run = .running) (hp : s.pc.toNat < 0x4000)
    (hd : decode s.cfg.opc (fetchBytes s) = .ok (i, rest)) : step s = afterInstruction (exec i (advance i s)) := by
  unfold step
  rw [hr]
  simp only [ramStart_le_iff, if_neg (Nat.not_le.2 hp), hd]

/-- The step when the bytes at PC decode to `i`. -/
theorem step_of_bytesAtPc {s : State} {bytes : List Byte} {i : Instr} (hr : s.run = .running)
    (hp : s.pc.toNat < 0x4000) (hb : BytesAtPc s bytes) (hd : decode s.cfg.opc bytes = .ok (i, [])) :
    step s = afterInstruction (exec i (s.setPc (s.pc + BitVec.ofNat 16 bytes.length))) := by
  have hl : bytes.length = i.length := decode_length hd
  obtain ⟨more, hm⟩ := fetchBytes_of_bytesAtPc hb (hl.trans_le (i.length_le_four))
  rw [step_of_decode hr hp (by rw [hm]; exact decode_append hd more), advance, hl]

/-- Everything a step can do from a RUNNING state (R80): stop before the fetch, stop at an illegal opcode, or run the
instruction that the bytes at PC decode to. -/
theorem step_cases {s : State} (hr : s.run = .running) :
    (0x4000 ≤ s.pc.toNat ∧ step s = .next (raise (.bounds s.pc) s)) ∨
    (s.pc.toNat < 0x4000 ∧ s.cfg.opc.mnemonicOf (s.readByte s.pc) = none ∧ step s = .next (decodeFault s)) ∨
    (∃ i bytes, s.pc.toNat < 0x4000 ∧ s.cfg.opc.mnemonicOf (s.readByte s.pc) = some i.mnemonic ∧ BytesAtPc s bytes ∧
      bytes.length = i.length ∧ decode s.cfg.opc bytes = .ok (i, []) ∧
      step s = afterInstruction (exec i (advance i s))) := by
  rcases Nat.lt_or_ge s.pc.toNat 0x4000 with hp | hp
  · refine .inr ?_
    cases hm : s.cfg.opc.mnemonicOf (s.readByte s.pc) with
    | none =>
      refine .inl ⟨hp, rfl, step_of_error (e := .illegalOpcode (s.readByte s.pc)) hr hp ?_⟩
      rw [fetchBytes, decode_cons, hm]
    | some m =>
      obtain ⟨f, rest, hf⟩ := decodeFields_isSome m.format (s.readByte (s.pc + 1)) (s.readByte (s.pc + 2))
        (s.readByte (s.pc + 3))
      have hd : decode s.cfg.opc (fetchBytes s) = .ok (instrOf m f, rest) := decode_of_mnemonicOf hm hf
      have hlen := decode_length hd
      exact .inr ⟨instrOf m f, (fetchBytes s).take (instrOf m f).length, hp, by rw [mnemonic_instrOf],
        bytesAtPc_fetchBytes s _, by rw [List.length_take]; omega, decode_take hd, step_of_decode hr hp hd⟩
  · exact .inl ⟨hp, step_of_fetch_outside hr hp⟩

/-- What a step answers next, whatever the state: the machine was RUNNING, and the next state is the bounds fault, the
decode fault, or the instruction's end with the bounds check. -/
theorem step_next_cases {s t : State} (h : step s = .next t) :
    s.run = .running ∧
    ((0x4000 ≤ s.pc.toNat ∧ t = raise (.bounds s.pc) s) ∨
     (s.pc.toNat < 0x4000 ∧ t = decodeFault s) ∨
     (∃ i u, s.pc.toNat < 0x4000 ∧ s.cfg.opc.mnemonicOf (s.readByte s.pc) = some i.mnemonic ∧
       exec i (advance i s) = .next u ∧ t = boundsCheck u)) := by
  have hr : s.run = .running := by
    unfold step at h
    cases hr : s.run with
    | running => rfl
    | halted => rw [hr] at h; cases h
    | faulted r => rw [hr] at h; cases h
  refine ⟨hr, ?_⟩
  rcases step_cases hr with ⟨hp, e⟩ | ⟨hp, -, e⟩ | ⟨i, bytes, hp, hm, -, -, -, e⟩ <;> rw [e] at h
  · cases h; exact .inl ⟨hp, rfl⟩
  · cases h; exact .inr (.inl ⟨hp, rfl⟩)
  · cases hx : exec i (advance i s) with
    | next u => rw [hx] at h; cases h; exact .inr (.inr ⟨i, u, hp, hm, hx, rfl⟩)
    | fault r => rw [hx] at h; cases h
    | refused r => rw [hx] at h; cases h

end Sys2Proof.Machine
end

