-- ==== Sys2Proof/Laws/Frame.lean ====
section
/-! SUPPORT. The frame of each update, and of updates one after another. -/

namespace Sys2Proof.Machine

theorem frame_refl (w : Writes) (s : State) : Frame w s s :=
  ⟨fun _ _ => rfl, fun _ _ => rfl, fun _ => rfl, fun _ => rfl, fun _ => rfl, fun _ => rfl, fun _ => rfl, fun _ => rfl,
    rfl, rfl⟩

/-- A frame may name more than was written. -/
theorem Frame.weaken {w w' : Writes} {s t : State} (h : Frame w s t) (hr : ∀ r ∈ w.regs, r ∈ w'.regs)
    (hb : ∀ a ∈ w.bytes, a ∈ w'.bytes) (hp : w.pc = true → w'.pc = true) (hs : w.sp = true → w'.sp = true)
    (hf : w.flags = true → w'.flags = true) (hn : w.run = true → w'.run = true) (ho : w.out = true → w'.out = true)
    (hi : w.inPos = true → w'.inPos = true) : Frame w' s t := by
  have off : ∀ {b b' : Bool}, (b = true → b' = true) → b' = false → b = false := by decide
  obtain ⟨h1, h2, h3, h4, h5, h6, h7, h8, h9, h10⟩ := h
  exact ⟨fun r h => h1 r (fun e => h (hr r e)), fun a h => h2 a (fun e => h (hb a e)), fun h => h3 (off hp h),
    fun h => h4 (off hs h), fun h => h5 (off hf h), fun h => h6 (off hn h), fun h => h7 (off ho h),
    fun h => h8 (off hi h), h9, h10⟩

/-- Two steps within one frame stay within it. -/
theorem Frame.trans {w : Writes} {s t u : State} (h : Frame w s t) (k : Frame w t u) : Frame w s u := by
  obtain ⟨h1, h2, h3, h4, h5, h6, h7, h8, h9, h10⟩ := h
  obtain ⟨k1, k2, k3, k4, k5, k6, k7, k8, k9, k10⟩ := k
  exact ⟨fun r h => (k1 r h).trans (h1 r h), fun a h => (k2 a h).trans (h2 a h), fun h => (k3 h).trans (h3 h),
    fun h => (k4 h).trans (h4 h), fun h => (k5 h).trans (h5 h), fun h => (k6 h).trans (h6 h),
    fun h => (k7 h).trans (h7 h), fun h => (k8 h).trans (h8 h), k9.trans h9, k10.trans h10⟩

variable {w : Writes} (s : State)

theorem frame_setReg {d : Reg} (h : d ∈ w.regs) (v : Word) : Frame w s (s.setReg d v) :=
  ⟨fun _ hr => reg_setReg_other s (by rintro rfl; exact hr h) v, fun _ _ => rfl, fun _ => rfl, fun _ => rfl, fun _ => rfl,
    fun _ => rfl, fun _ => rfl, fun _ => rfl, rfl, rfl⟩

theorem frame_setFlags (h : w.flags = true) (v : Byte) : Frame w s (s.setFlags v) :=
  ⟨fun _ _ => rfl, fun _ _ => rfl, fun _ => rfl, fun _ => rfl, fun e => (by rw [h] at e; cases e), fun _ => rfl,
    fun _ => rfl, fun _ => rfl, rfl, rfl⟩

theorem frame_setPc (h : w.pc = true) (v : Word) : Frame w s (s.setPc v) :=
  ⟨fun _ _ => rfl, fun _ _ => rfl, fun e => (by rw [h] at e; cases e), fun _ => rfl, fun _ => rfl, fun _ => rfl,
    fun _ => rfl, fun _ => rfl, rfl, rfl⟩

theorem frame_setSp (h : w.sp = true) (v : Word) : Frame w s (s.setSp v) :=
  ⟨fun _ _ => rfl, fun _ _ => rfl, fun _ => rfl, fun e => (by rw [h] at e; cases e), fun _ => rfl, fun _ => rfl,
    fun _ => rfl, fun _ => rfl, rfl, rfl⟩

theorem frame_run (h : w.run = true) (r : RunStatus) : Frame w s { s with run := r } :=
  ⟨fun _ _ => rfl, fun _ _ => rfl, fun _ => rfl, fun _ => rfl, fun _ => rfl, fun e => (by rw [h] at e; cases e),
    fun _ => rfl, fun _ => rfl, rfl, rfl⟩

theorem frame_raise (h : w.run = true) (r : FaultReason) : Frame w s (raise r s) := frame_run s h _

theorem frame_boundsCheck (h : w.run = true) : Frame w s (boundsCheck s) := by
  rw [boundsCheck_eq]; exact frame_run s h _

theorem frame_writeByte {a : Word} (h : a ∈ w.bytes) (b : Byte) : Frame w s (s.writeByte a b) :=
  ⟨fun _ _ => rfl, fun _ hk => readByte_writeByte_other s (by rintro rfl; exact hk h) b, fun _ => rfl, fun _ => rfl,
    fun _ => rfl, fun _ => rfl, fun _ => rfl, fun _ => rfl, rfl, rfl⟩

theorem frame_consoleWrite (h : w.out = true) (b : Byte) : Frame w s (consoleWrite b s) :=
  ⟨fun _ _ => rfl, fun _ _ => rfl, fun _ => rfl, fun _ => rfl, fun _ => rfl, fun _ => rfl,
    fun e => (by rw [h] at e; cases e), fun _ => rfl, rfl, rfl⟩

theorem frame_inPos (h : w.inPos = true) (n : Nat) : Frame w s { s with inPos := n } :=
  ⟨fun _ _ => rfl, fun _ _ => rfl, fun _ => rfl, fun _ => rfl, fun _ => rfl, fun _ => rfl, fun _ => rfl,
    fun e => (by rw [h] at e; cases e), rfl, rfl⟩

theorem frame_pushed (hs : w.sp = true) (h : s.sp ∈ w.bytes) (h' : s.sp - 1 ∈ w.bytes) (v : Word) :
    Frame w s (pushed v s) :=
  ((frame_writeByte s h _).trans (frame_writeByte _ h' _)).trans (frame_setSp _ hs _)

/-- The flags after a flag byte is written (10_state.md R14). -/
theorem flagsAre_setFlags {s : State} (h : s.cfg.flagBits.wellFormed) (z c g : Bool) :
    FlagsAre (s.setFlags (flagByte s.cfg.flagBits z c g)) z c g :=
  ⟨flagZ_setFlags h z c g, flagC_setFlags h z c g, flagS_setFlags h z c g, fun _ h1 h2 h3 => flagByte_unused _ z c g h1 h2 h3⟩

end Sys2Proof.Machine
end

