-- ==== Sys2Proof/Laws/PerInstr.lean ====
section
/-! SUPPORT. The family EncodedLength, one lemma per constructor of Instr: the encoding of the instruction has the length
of its format, from 1 to 4 bytes (30_encoding.md R60, R71). -/

namespace Sys2Proof.Laws.EncodedLength

open Sys2Proof

def Statement (i : Instr) : Prop :=
  ∀ opc : OpcodeMap, (encode opc i).length = i.length ∧ 1 ≤ i.length ∧ i.length ≤ 4

theorem nop : Statement .nop := fun _ => ⟨rfl, Mnemonic.length_bounds _⟩
theorem hlt : Statement .hlt := fun _ => ⟨rfl, Mnemonic.length_bounds _⟩
theorem cmprr (reg1 reg2 : Reg) : Statement (.cmprr reg1 reg2) := fun _ => ⟨rfl, Mnemonic.length_bounds _⟩
theorem cmpri (reg1 : Reg) (imm : Word) : Statement (.cmpri reg1 imm) := fun _ => ⟨rfl, Mnemonic.length_bounds _⟩
theorem jmp (imm : Word) : Statement (.jmp imm) := fun _ => ⟨rfl, Mnemonic.length_bounds _⟩
theorem jmz (imm : Word) : Statement (.jmz imm) := fun _ => ⟨rfl, Mnemonic.length_bounds _⟩
theorem jnz (imm : Word) : Statement (.jnz imm) := fun _ => ⟨rfl, Mnemonic.length_bounds _⟩
theorem jmc (imm : Word) : Statement (.jmc imm) := fun _ => ⟨rfl, Mnemonic.length_bounds _⟩
theorem jms (imm : Word) : Statement (.jms imm) := fun _ => ⟨rfl, Mnemonic.length_bounds _⟩
theorem call (imm : Word) : Statement (.call imm) := fun _ => ⟨rfl, Mnemonic.length_bounds _⟩
theorem ret : Statement .ret := fun _ => ⟨rfl, Mnemonic.length_bounds _⟩
theorem movrr (reg1 reg2 : Reg) : Statement (.movrr reg1 reg2) := fun _ => ⟨rfl, Mnemonic.length_bounds _⟩
theorem movri (reg1 : Reg) (imm : Word) : Statement (.movri reg1 imm) := fun _ => ⟨rfl, Mnemonic.length_bounds _⟩
theorem stordr (reg1 : Reg) (imm : Word) : Statement (.stordr reg1 imm) := fun _ => ⟨rfl, Mnemonic.length_bounds _⟩
theorem stormi (reg1 : Reg) (imm : Word) : Statement (.stormi reg1 imm) := fun _ => ⟨rfl, Mnemonic.length_bounds _⟩
theorem stormr (reg1 reg2 : Reg) : Statement (.stormr reg1 reg2) := fun _ => ⟨rfl, Mnemonic.length_bounds _⟩
theorem loadrd (reg1 : Reg) (imm : Word) : Statement (.loadrd reg1 imm) := fun _ => ⟨rfl, Mnemonic.length_bounds _⟩
theorem loadrm (reg1 reg2 : Reg) : Statement (.loadrm reg1 reg2) := fun _ => ⟨rfl, Mnemonic.length_bounds _⟩
theorem pushr (reg1 : Reg) : Statement (.pushr reg1) := fun _ => ⟨rfl, Mnemonic.length_bounds _⟩
theorem popr (reg1 : Reg) : Statement (.popr reg1) := fun _ => ⟨rfl, Mnemonic.length_bounds _⟩
theorem storbdr (reg1 : Reg) (imm : Word) : Statement (.storbdr reg1 imm) := fun _ => ⟨rfl, Mnemonic.length_bounds _⟩
theorem storbmi (reg1 : Reg) (imm : Word) : Statement (.storbmi reg1 imm) := fun _ => ⟨rfl, Mnemonic.length_bounds _⟩
theorem storbmr (reg1 reg2 : Reg) : Statement (.storbmr reg1 reg2) := fun _ => ⟨rfl, Mnemonic.length_bounds _⟩
theorem loadbrd (reg1 : Reg) (imm : Word) : Statement (.loadbrd reg1 imm) := fun _ => ⟨rfl, Mnemonic.length_bounds _⟩
theorem loadbrm (reg1 reg2 : Reg) : Statement (.loadbrm reg1 reg2) := fun _ => ⟨rfl, Mnemonic.length_bounds _⟩
theorem addrr (reg1 reg2 : Reg) : Statement (.addrr reg1 reg2) := fun _ => ⟨rfl, Mnemonic.length_bounds _⟩
theorem addri (reg1 : Reg) (imm : Word) : Statement (.addri reg1 imm) := fun _ => ⟨rfl, Mnemonic.length_bounds _⟩
theorem subrr (reg1 reg2 : Reg) : Statement (.subrr reg1 reg2) := fun _ => ⟨rfl, Mnemonic.length_bounds _⟩
theorem subri (reg1 : Reg) (imm : Word) : Statement (.subri reg1 imm) := fun _ => ⟨rfl, Mnemonic.length_bounds _⟩
theorem mulrr (reg1 reg2 : Reg) : Statement (.mulrr reg1 reg2) := fun _ => ⟨rfl, Mnemonic.length_bounds _⟩
theorem mulri (reg1 : Reg) (imm : Word) : Statement (.mulri reg1 imm) := fun _ => ⟨rfl, Mnemonic.length_bounds _⟩
theorem divrr (reg1 reg2 : Reg) : Statement (.divrr reg1 reg2) := fun _ => ⟨rfl, Mnemonic.length_bounds _⟩
theorem divri (reg1 : Reg) (imm : Word) : Statement (.divri reg1 imm) := fun _ => ⟨rfl, Mnemonic.length_bounds _⟩
theorem incr (reg1 : Reg) : Statement (.incr reg1) := fun _ => ⟨rfl, Mnemonic.length_bounds _⟩
theorem decr (reg1 : Reg) : Statement (.decr reg1) := fun _ => ⟨rfl, Mnemonic.length_bounds _⟩
theorem andrr (reg1 reg2 : Reg) : Statement (.andrr reg1 reg2) := fun _ => ⟨rfl, Mnemonic.length_bounds _⟩
theorem andri (reg1 : Reg) (imm : Word) : Statement (.andri reg1 imm) := fun _ => ⟨rfl, Mnemonic.length_bounds _⟩
theorem orrr (reg1 reg2 : Reg) : Statement (.orrr reg1 reg2) := fun _ => ⟨rfl, Mnemonic.length_bounds _⟩
theorem orri (reg1 : Reg) (imm : Word) : Statement (.orri reg1 imm) := fun _ => ⟨rfl, Mnemonic.length_bounds _⟩
theorem xorrr (reg1 reg2 : Reg) : Statement (.xorrr reg1 reg2) := fun _ => ⟨rfl, Mnemonic.length_bounds _⟩
theorem xorri (reg1 : Reg) (imm : Word) : Statement (.xorri reg1 imm) := fun _ => ⟨rfl, Mnemonic.length_bounds _⟩
theorem not (reg1 : Reg) : Statement (.not reg1) := fun _ => ⟨rfl, Mnemonic.length_bounds _⟩
theorem shr (reg1 : Reg) : Statement (.shr reg1) := fun _ => ⟨rfl, Mnemonic.length_bounds _⟩
theorem shl (reg1 : Reg) : Statement (.shl reg1) := fun _ => ⟨rfl, Mnemonic.length_bounds _⟩

end Sys2Proof.Laws.EncodedLength
end

