-- ==== Sys2Proof/Tests/Slice0.lean ====
section
/-! SUPPORT. The smoke test of WellFormed, words written out from the spec's encodings, one step per instruction with
the results of 95_test_vectors.md (or worked by hand from the rule named), and a witness for every statement that has
hypotheses. -/

namespace Sys2Proof.Tests

open Sys2Proof Sys2Proof.Machine

/-! ## Helpers -/

def nextOf (o : Host.Outcome State Fault Refusal) : Option State :=
  match o with
  | .next t => some t
  | _ => none

/-- What a part of the state is after one step. -/
def after {α : Type} (f : State → α) (s : State) : Option α := (nextOf (step s)).map f

/-- The reset state with PC at `pc` and these bytes there. -/
def code (pc : Word) (bytes : List Byte) : State :=
  { State.reset with pc := pc, mem := Memory.writeBytes [] pc.toNat bytes }

/-- The reset state with these bytes at 0. -/
def boot (bytes : List Byte) : State := code 0 bytes

/-- Bytes of data put in memory. -/
def data (a : Word) (bytes : List Byte) (s : State) : State := { s with mem := Memory.writeBytes s.mem a.toNat bytes }

def flags3 (t : State) : Bool × Bool × Bool := (t.flagZ, t.flagC, t.flagS)

/-- The three flags set (95_test_vectors.md 2.7). -/
def allFlags (s : State) : State := s.setFlags 0x07

/-- Other parameters than the defaults: flag positions 7, 5, 6. -/
def otherFlags : FlagBits := { zero := 7, carry := 5, sign := 6 }

/-! ## WellFormed refuses ill-formed terms -/

theorem test_opcodes_wellFormed : defaultOpcodes.wellFormed := by decide
theorem test_opcodes_not_injective : ¬ OpcodeMap.wellFormed (defaultOpcodes.set 3 0x00) := by decide
theorem test_flagBits_wellFormed : FlagBits.wellFormed defaultFlagBits ∧ FlagBits.wellFormed otherFlags := by decide
theorem test_flagBits_collide : ¬ FlagBits.wellFormed { zero := 0, carry := 1, sign := 1 } := by decide
theorem test_config_ill_formed : ¬ Config.wellFormed { defaultConfig with opc := defaultOpcodes.set 3 0x00 } := by decide
theorem test_config_ill_formed_flags :
    ¬ Config.wellFormed { defaultConfig with flagBits := { zero := 0, carry := 0, sign := 1 } } := by decide
theorem test_image_too_long : ¬ imageWellFormed (List.replicate 65537 0) := by
  rw [imageWellFormed, List.length_replicate]; omega
theorem test_image_at_the_limit : imageWellFormed (List.replicate 65536 0) := by
  rw [imageWellFormed, List.length_replicate]

/-! ## Decoding: one word per format and family, from 95_test_vectors.md 2.1 and the Encoding line of each rule -/

theorem test_decode_nop : decode defaultOpcodes [0x00] = .ok (.nop, []) := rfl
theorem test_decode_jmp : decode defaultOpcodes [0x04, 0x34, 0x12] = .ok (.jmp 0x1234, []) := rfl
theorem test_decode_movrr : decode defaultOpcodes [0x10, 0x2F] = .ok (.movrr 2 15, []) := rfl
theorem test_decode_movri_ignored_nibble : decode defaultOpcodes [0x11, 0x7F, 0xCD, 0xAB] = .ok (.movri 7 0xABCD, []) := rfl
theorem test_decode_pushr_ignored_nibble : decode defaultOpcodes [0x17, 0xAF] = .ok (.pushr 10, []) := rfl
theorem test_decode_addrr : decode defaultOpcodes [0x20, 0x33] = .ok (.addrr 3 3, []) := rfl
theorem test_decode_xorri : decode defaultOpcodes [0x35, 0x40, 0xFF, 0xFF] = .ok (.xorri 4 0xFFFF, []) := rfl
theorem test_decode_illegal : decode defaultOpcodes [0x0B, 0x12] = .error (.illegalOpcode 0x0B) := rfl
theorem test_decode_truncated : decode defaultOpcodes [0x11, 0x70, 0xCD] = .error .truncated := rfl
theorem test_decode_rest : decode defaultOpcodes [0x28, 0x90, 0x01] = .ok (.incr 9, [0x01]) := rfl
/-- JMP 0x1234 in the opcode table's numbering: the second byte is bits 15:8. -/
theorem test_decodeTableWord : decodeTableWord 24 0x123404 = some (.jmp 0x1234) := rfl
theorem test_decodeTableWord_operands_absent : decodeTableWord 8 0x11 = some (.movri 0 0) := rfl
theorem test_encode_stormi : encode defaultOpcodes (.stormi 2 0xABCD) = [0x13, 0x20, 0xCD, 0xAB] := rfl
theorem test_opcode_lookup : ∀ m ∈ Mnemonic.all, defaultOpcodes.mnemonicOf (defaultOpcode m) = some m := by decide

/-! ### Every constructor, from the encoding of its rule and 95_test_vectors.md -/

/-- What the Decoder reads from bytes that are one whole instruction under the default OPC. -/
def reads (bytes : List Byte) : Option Instr :=
  match decode defaultOpcodes bytes with
  | .ok (i, []) => some i
  | _ => none

theorem test_words_control_flow :
    reads [0x00] = some .nop ∧
    reads [0x01] = some .hlt ∧
    reads [0x02, 0x12] = some (.cmprr 1 2) ∧
    reads [0x03, 0x00, 0x41, 0x00] = some (.cmpri 0 0x0041) ∧
    reads [0x04, 0x10, 0x00] = some (.jmp 0x0010) ∧
    reads [0x05, 0x00, 0x01] = some (.jmz 0x0100) ∧
    reads [0x06, 0x04, 0x00] = some (.jnz 0x0004) ∧
    reads [0x07, 0x00, 0x01] = some (.jmc 0x0100) ∧
    reads [0x08, 0x00, 0x01] = some (.jms 0x0100) ∧
    reads [0x09, 0x20, 0x00] = some (.call 0x0020) ∧
    reads [0x0A] = some .ret := by
  decide

theorem test_words_data_movement :
    reads [0x10, 0x23] = some (.movrr 2 3) ∧
    reads [0x11, 0x00, 0x05, 0x00] = some (.movri 0 5) ∧
    reads [0x12, 0x10, 0x00, 0x40] = some (.stordr 1 0x4000) ∧
    reads [0x13, 0x20, 0xCD, 0xAB] = some (.stormi 2 0xABCD) ∧
    reads [0x14, 0x45] = some (.stormr 4 5) ∧
    reads [0x15, 0x30, 0x00, 0x40] = some (.loadrd 3 0x4000) ∧
    reads [0x16, 0x12] = some (.loadrm 1 2) ∧
    reads [0x17, 0x10] = some (.pushr 1) ∧
    reads [0x18, 0x20] = some (.popr 2) ∧
    reads [0x19, 0x00, 0xFF, 0xFF] = some (.storbdr 0 0xFFFF) ∧
    reads [0x1A, 0x20, 0x0A, 0x00] = some (.storbmi 2 0x000A) ∧
    reads [0x1B, 0x45] = some (.storbmr 4 5) ∧
    reads [0x1C, 0x30, 0x01, 0x40] = some (.loadbrd 3 0x4001) ∧
    reads [0x1D, 0x01] = some (.loadbrm 0 1) := by
  decide

theorem test_words_arithmetic :
    reads [0x20, 0x01] = some (.addrr 0 1) ∧
    reads [0x21, 0x20, 0x20, 0x00] = some (.addri 2 0x0020) ∧
    reads [0x22, 0x01] = some (.subrr 0 1) ∧
    reads [0x23, 0x30, 0x01, 0x00] = some (.subri 3 1) ∧
    reads [0x24, 0x01] = some (.mulrr 0 1) ∧
    reads [0x25, 0x10, 0x02, 0x00] = some (.mulri 1 2) ∧
    reads [0x26, 0x01] = some (.divrr 0 1) ∧
    reads [0x27, 0x00, 0x07, 0x00] = some (.divri 0 7) ∧
    reads [0x28, 0x50] = some (.incr 5) ∧
    reads [0x29, 0x00] = some (.decr 0) := by
  decide

theorem test_words_bitwise :
    reads [0x30, 0x01] = some (.andrr 0 1) ∧
    reads [0x31, 0x20, 0xFF, 0x00] = some (.andri 2 0x00FF) ∧
    reads [0x32, 0x01] = some (.orrr 0 1) ∧
    reads [0x33, 0x30, 0x00, 0x80] = some (.orri 3 0x8000) ∧
    reads [0x34, 0x01] = some (.xorrr 0 1) ∧
    reads [0x35, 0x40, 0xFF, 0xFF] = some (.xorri 4 0xFFFF) ∧
    reads [0x36, 0x10] = some (.not 1) ∧
    reads [0x37, 0x20] = some (.shr 2) ∧
    reads [0x38, 0x20] = some (.shl 2) := by
  decide

/-! ## One step, control flow -/

theorem test_nop : after (fun t => (t.pc, t.run)) (code 0x0010 [0x00]) = some (0x0011, .running) := by decide
theorem test_hlt_last_byte : after (fun t => (t.pc, t.run)) (code 0x3FFF [0x01]) = some (0x4000, .halted) := by decide
theorem test_nop_last_byte : after (fun t => (t.pc, t.run)) (code 0x3FFF [0x00]) = some (0x4000, .faulted (.bounds 0x4000)) := by
  decide
theorem test_cmprr : after (fun t => (t.reg 1, flags3 t)) (((boot [0x02, 0x12]).setReg 1 3).setReg 2 5) =
    some (3, false, true, true) := by decide
theorem test_cmpri : after flags3 ((boot [0x03, 0x00, 0x41, 0x00]).setReg 0 0x41) = some (true, false, false) := by decide
theorem test_cmpri_unsigned : after flags3 ((boot [0x03, 0x00, 0x01, 0x00]).setReg 0 0x8000) = some (false, false, false) := by
  decide
theorem test_jmp : after State.pc (boot [0x04, 0x10, 0x00]) = some 0x0010 := by decide
theorem test_jmp_out : after (fun t => (t.pc, t.run)) (boot [0x04, 0x00, 0x40]) =
    some (0x4000, .faulted (.bounds 0x4000)) := by decide
theorem test_jmz : after State.pc ((code 0x0020 [0x05, 0x00, 0x01]).setFlags 1) = some 0x0100 := by decide
theorem test_jmz_not_taken : after State.pc ((code 0x0020 [0x05, 0x00, 0x01]).setFlags 6) = some 0x0023 := by decide
theorem test_jnz : after State.pc ((code 0x0020 [0x06, 0x00, 0x01]).setFlags 6) = some 0x0100 := by decide
theorem test_jnz_not_taken : after State.pc ((code 0x0020 [0x06, 0x00, 0x01]).setFlags 1) = some 0x0023 := by decide
theorem test_jmc : after State.pc ((code 0x0020 [0x07, 0x00, 0x01]).setFlags 2) = some 0x0100 := by decide
theorem test_jmc_not_taken : after State.pc ((code 0x0020 [0x07, 0x00, 0x01]).setFlags 5) = some 0x0023 := by decide
theorem test_jms : after State.pc ((code 0x0020 [0x08, 0x00, 0x01]).setFlags 4) = some 0x0100 := by decide
theorem test_jms_not_taken : after State.pc ((code 0x0020 [0x08, 0x00, 0x01]).setFlags 3) = some 0x0023 := by decide
theorem test_call : after (fun t => (t.pc, t.sp, t.readByte 0xDEFF, t.readByte 0xDEFE)) (code 0x0004 [0x09, 0x20, 0x00]) =
    some (0x0020, 0xDEFD, 0x07, 0x00) := by decide
theorem test_ret : after (fun t => (t.pc, t.sp)) (data 0xDEFE [0x00, 0x07] ((code 0x0020 [0x0A]).setSp 0xDEFD)) =
    some (0x0007, 0xDEFF) := by decide
theorem test_ret_empty : after (fun t => (t.pc, t.sp, t.run)) (boot [0x0A, 0x01]) =
    some (0x0001, 0xDEFF, .faulted (.stack .underflow 0xDEFF)) := by decide

/-! ## One step, data movement -/

theorem test_movrr : after (fun t => (t.reg 2, t.reg 3)) ((boot [0x10, 0x23]).setReg 3 0xBEEF) = some (0xBEEF, 0xBEEF) := by decide
theorem test_movri : after (fun t => (t.reg 0, t.pc)) (boot [0x11, 0x00, 0x05, 0x00]) = some (5, 4) := by decide
theorem test_stordr : after (fun t => (t.readByte 0x4000, t.readByte 0x4001)) ((boot [0x12, 0x10, 0x00, 0x40]).setReg 1 0x1234) =
    some (0x34, 0x12) := by decide
theorem test_stormi : after (fun t => (t.readByte 0x5000, t.readByte 0x5001)) ((boot [0x13, 0x20, 0xCD, 0xAB]).setReg 2 0x5000) =
    some (0xCD, 0xAB) := by decide
theorem test_stormi_guard : after (fun t => (t.run, t.pc, t.readByte 0)) (boot [0x13, 0x00, 0x01, 0x00]) =
    some (.faulted (.writeProtect 0), 4, 0x13) := by decide
theorem test_stormr : after (fun t => (t.readByte 0x6000, t.readByte 0x6001))
    (((boot [0x14, 0x45]).setReg 4 0x6000).setReg 5 0x00FF) = some (0xFF, 0x00) := by decide
theorem test_stormr_rx_port : after (fun t => (t.readByte 0xFF00, t.readByte 0xFF01, t.out))
    (((boot [0x14, 0x45]).setReg 4 0xFF00).setReg 5 0x4241) = some (0x41, 0x42, []) := by decide
theorem test_loadrd_own_bytes : after (fun t => t.reg 1) (boot [0x15, 0x10, 0x00, 0x00]) = some 0x1015 := by decide
theorem test_loadrd_below_rx : after (fun t => (t.reg 1, t.inPos))
    (data 0xFEFF [0x11, 0x22] (deliverInput [0x7A] (boot [0x15, 0x10, 0xFF, 0xFE]))) = some (0x2211, 0) := by decide
theorem test_loadrm : after (fun t => t.reg 2) (data 0x5000 [0xCD, 0xAB] ((boot [0x16, 0x22]).setReg 2 0x5000)) =
    some 0xABCD := by decide
theorem test_loadrm_last_address : after State.run ((boot [0x16, 0x01]).setReg 1 0xFFFF) =
    some (.faulted (.address 0xFFFF)) := by decide
theorem test_pushr : after (fun t => (t.sp, t.readByte 0xDEFF, t.readByte 0xDEFE)) ((boot [0x17, 0x10]).setReg 1 0xA1B2) =
    some (0xDEFD, 0xB2, 0xA1) := by decide
theorem test_pushr_overflow : after (fun t => (t.run, t.sp)) ((boot [0x17, 0x00]).setSp 0x3FFF) =
    some (.faulted (.stack .overflow 0x3FFF), 0x3FFF) := by decide
theorem test_popr : after (fun t => (t.reg 0, t.sp)) (data 0x4000 [0x12, 0x34] ((boot [0x18, 0x00]).setSp 0x3FFF)) =
    some (0x1234, 0x4001) := by decide
theorem test_popr_empty : after State.run (boot [0x18, 0x30]) = some (.faulted (.stack .underflow 0xDEFF)) := by decide
theorem test_storbdr_last_address : after (fun t => t.readByte 0xFFFF) ((boot [0x19, 0x00, 0xFF, 0xFF]).setReg 0 0x00AA) =
    some 0xAA := by decide
theorem test_storbdr_tx : after State.out ((boot [0x19, 0x00, 0x01, 0xFF]).setReg 0 0x0141) = some [0x41] := by decide
theorem test_storbmi_tx : after (fun t => (t.out, t.readByte 0xFF01)) ((boot [0x1A, 0x20, 0x0A, 0x00]).setReg 2 0xFF01) =
    some ([0x0A], 0) := by decide
theorem test_storbmr : after (fun t => (t.readByte 0x6000, t.readByte 0x6001))
    (data 0x6001 [0x77] (((boot [0x1B, 0x45]).setReg 4 0x6000).setReg 5 0xABCD)) = some (0xCD, 0x77) := by decide
theorem test_loadbrd : after (fun t => t.reg 3) (data 0x4000 [0x34, 0x12] ((boot [0x1C, 0x30, 0x01, 0x40]).setReg 3 0xFFFF)) =
    some 0x0012 := by decide
theorem test_loadbrm_rx : after (fun t => (t.reg 1, t.inPos))
    (deliverInput [0x7A, 0x7B] (((boot [0x1D, 0x12]).setReg 2 0xFF00).setReg 1 0xFFFF)) = some (0x007A, 1) := by decide
theorem test_loadbrd_blocked : step (boot [0x1C, 0x10, 0x00, 0xFF]) = .fault .consoleBlocked := rfl
theorem test_stordr_tx_wide : after (fun t => (t.run, t.out)) ((boot [0x12, 0x00, 0x01, 0xFF]).setReg 0 0x0141) =
    some (.faulted (.io 0xFF01 0x0141), []) := by decide

/-! ## One step, arithmetic -/

theorem test_addrr_same_register : after (fun t => (t.reg 3, flags3 t)) ((boot [0x20, 0x33]).setReg 3 0xC000) =
    some (0x8000, false, true, true) := by decide
theorem test_addri : after (fun t => (t.reg 2, flags3 t)) ((boot [0x21, 0x20, 0x20, 0x00]).setReg 2 0xFFF0) =
    some (0x0010, false, true, false) := by decide
theorem test_subrr : after (fun t => (t.reg 0, flags3 t)) (((boot [0x22, 0x01]).setReg 0 3).setReg 1 5) =
    some (0xFFFE, false, true, true) := by decide
theorem test_subri : after (fun t => (t.reg 3, flags3 t)) (boot [0x23, 0x30, 0x01, 0x00]) =
    some (0xFFFF, false, true, true) := by decide
theorem test_mulrr_carry_clear_on_overflow : after (fun t => (t.reg 0, flags3 t))
    (((boot [0x24, 0x01]).setReg 0 0x0181).setReg 1 0x0181) = some (0x4301, false, false, false) := by decide
theorem test_mulri_carry_set_without_overflow : after (fun t => (t.reg 1, flags3 t)) (boot [0x25, 0x10, 0x05, 0x00]) =
    some (0, true, true, false) := by decide
theorem test_divrr : after (fun t => t.reg 0) (((boot [0x26, 0x01]).setReg 0 0x8000).setReg 1 0xFFFF) = some 0 := by decide
theorem test_divri : after (fun t => t.reg 0) ((boot [0x27, 0x00, 0x07, 0x00]).setReg 0 0x0064) = some 0x000E := by decide
theorem test_divri_by_zero : after (fun t => (t.reg 0, t.flags, t.pc, t.run)) ((boot [0x27, 0x00, 0x00, 0x00]).setReg 0 9) =
    some (9, 0, 4, .faulted .arithmetic) := by decide
theorem test_incr : after (fun t => (t.reg 5, flags3 t)) ((boot [0x28, 0x50]).setReg 5 0xFFFF) =
    some (0, true, true, false) := by decide
theorem test_decr : after (fun t => (t.reg 0, flags3 t)) (boot [0x29, 0x00]) = some (0xFFFF, false, true, true) := by decide
/-- The flag byte itself under other positions: CARRY at bit 5 and SIGN at bit 6, every other bit cleared. -/
theorem test_flag_positions : after State.flags
    (({ boot [0x29, 0x00] with cfg := { defaultConfig with flagBits := otherFlags } }).setFlags 0xFF) = some 0x60 := by decide

/-! ## One step, bitwise (95_test_vectors.md 2.7, with all three flags set before and after) -/

theorem test_andrr : after (fun t => (t.reg 0, t.flags)) (allFlags (((boot [0x30, 0x01]).setReg 0 0xF0F0).setReg 1 0xFF00)) =
    some (0xF000, 7) := by decide
theorem test_andri : after (fun t => (t.reg 2, t.flags)) (allFlags ((boot [0x31, 0x20, 0xFF, 0x00]).setReg 2 0x1234)) =
    some (0x0034, 7) := by decide
theorem test_orrr : after (fun t => (t.reg 0, t.flags)) (allFlags (((boot [0x32, 0x01]).setReg 0 0xF0F0).setReg 1 0x0F00)) =
    some (0xFFF0, 7) := by decide
theorem test_orri : after (fun t => (t.reg 3, t.flags)) (allFlags ((boot [0x33, 0x30, 0x00, 0x80]).setReg 3 1)) =
    some (0x8001, 7) := by decide
theorem test_xorrr : after (fun t => (t.reg 0, t.flags)) (allFlags (((boot [0x34, 0x01]).setReg 0 0xFF00).setReg 1 0x0FF0)) =
    some (0xF0F0, 7) := by decide
theorem test_xorri : after (fun t => (t.reg 4, t.flags)) (allFlags ((boot [0x35, 0x40, 0xFF, 0xFF]).setReg 4 0xAAAA)) =
    some (0x5555, 7) := by decide
theorem test_not : after (fun t => (t.reg 1, t.flags)) (allFlags ((boot [0x36, 0x10]).setReg 1 0x00FF)) = some (0xFF00, 7) := by
  decide
theorem test_shr : after (fun t => (t.reg 2, t.flags)) (allFlags ((boot [0x37, 0x20]).setReg 2 0x8001)) = some (0x4000, 7) := by
  decide
theorem test_shl : after (fun t => (t.reg 2, t.flags)) (allFlags ((boot [0x38, 0x20]).setReg 2 0x8001)) = some (0x0002, 7) := by
  decide

/-! ## Faults and the host's operations -/

theorem test_decode_fault : after (fun t => (t.run, t.pc)) (boot [0xFF]) = some (.faulted (.decode 0 0xFF), 1) := by decide
/-- MOVRI straddling the boundary executes before the bounds check (95_test_vectors.md 2.11). -/
theorem test_straddling_movri : after (fun t => (t.reg 3, t.pc, t.run)) (code 0x3FFE [0x11, 0x30, 0x34, 0x12]) =
    some (0x1234, 0x4002, .faulted (.bounds 0x4002)) := by decide
theorem test_withFetchWord : after (fun t => (t.reg 7, t.pc)) (State.reset.withFetchWord 32 0xABCD7011) = some (0xABCD, 4) := by
  decide
theorem test_loadImage : (loadImage [0x11, 0x00] State.reset).map (fun t => (t.readByte 0, t.mem.length)) = some (0x11, 1) := by
  decide

/-! ## Witnesses: for every statement with hypotheses, values that meet them all, at the boundaries of each clause -/

/-- What a step answers, as an equation the kernel evaluates. -/
theorem next_of_nextOf {o : Host.Outcome State Fault Refusal} {t : State} (h : nextOf o = some t) : o = .next t := by
  cases o with
  | next u => cases h; rfl
  | fault r => cases h
  | refused r => cases h

/-- There is a next state, and the property holds of it. -/
theorem exists_next {o : Host.Outcome State Fault Refusal} {p : State → Bool} (h : (nextOf o).any p = true) :
    ∃ t, o = .next t ∧ p t = true := by
  cases o with
  | next u => exact ⟨u, rfl, h⟩
  | fault r => cases h
  | refused r => cases h

theorem witness_DecodeOfEncodeIsTheInstruction :
    defaultOpcodes.wellFormed ∧ OpcodeMap.wellFormed (defaultOpcodes.set 0 0xFF) := by decide

theorem witness_EncodeOfDecodeIsTheBytes :
    decode defaultOpcodes [0x11, 0x7F, 0xCD, 0xAB, 0x01] = .ok (.movri 7 0xABCD, [0x01]) := rfl

/-- At the last address of program space, with operand bytes beyond it. -/
theorem witness_StepRunsTheDecodedInstruction :
    let s := code 0x3FFF [0x11, 0x30, 0x34, 0x12]
    s.run = .running ∧ s.pc.toNat < 0x4000 ∧ BytesAtPc s [0x11, 0x30, 0x34, 0x12] ∧
      decode s.cfg.opc [0x11, 0x30, 0x34, 0x12] = .ok (.movri 3 0x1234, []) :=
  ⟨by decide, by decide, by unfold BytesAtPc; decide, rfl⟩

theorem witness_IllegalOpcodeRaisesDecodeFault :
    let s := code 0x3FFF [0xFF]
    s.run = .running ∧ s.pc.toNat < 0x4000 ∧ s.cfg.opc.mnemonicOf (s.readByte s.pc) = none := by decide

theorem witness_LegalOpcodeAlwaysDecodes :
    let s := code 0x3FFF [0x38, 0x20]
    s.run = .running ∧ s.pc.toNat < 0x4000 ∧ s.cfg.opc.mnemonicOf (s.readByte s.pc) = some .shl := by decide

theorem witness_PcOutsideProgramSpaceFaultsBeforeFetch :
    (State.reset.setPc 0x4000).run = .running ∧ 0x4000 ≤ (State.reset.setPc 0x4000).pc.toNat ∧
      0x4000 ≤ (State.reset.setPc 0xFFFF).pc.toNat := by decide

theorem witness_TerminalStatusHasNoStep :
    (halt State.reset).run ≠ .running ∧ (raise .arithmetic State.reset).run ≠ .running := by decide

/-- One RUNNING state for each alternative; the blocked one by a load of either address form. -/
theorem witness_RunningStepCompletesUnlessConsoleBlocks :
    (boot [0x1C, 0x10, 0x00, 0xFF]).run = .running ∧ step (boot [0x1C, 0x10, 0x00, 0xFF]) = .fault .consoleBlocked ∧
      LoadsRx (.loadbrd 1 0xFF00) (boot [0x1C, 0x10, 0x00, 0xFF]) ∧
      step ((boot [0x16, 0x12]).setReg 2 0xFF00) = .fault .consoleBlocked ∧
      LoadsRx (.loadrm 1 2) ((boot [0x16, 0x12]).setReg 2 0xFF00) ∧
      ∃ t, step (boot [0x00]) = .next t ∧ decide (t.pc = 1) = true :=
  ⟨by decide, rfl, ⟨1, 1, .inr (.inl rfl)⟩, rfl, ⟨1, 2, .inr (.inr ⟨by decide, .inl rfl⟩)⟩,
    exists_next (p := fun t => decide (t.pc = 1)) (by decide)⟩

theorem witness_OnlyHltHalts :
    (∃ t, step (boot [0x01]) = .next t ∧ decide (t.run = .halted) = true) ∧ (halt State.reset).run = .halted :=
  ⟨exists_next (p := fun t => decide (t.run = .halted)) (by decide), by decide⟩

theorem witness_ExecutorFaultChangesOnlyTheStatus :
    State.reset.run = .running ∧
      ∃ t, exec (.divri 0 0) State.reset = .next t ∧ decide (t.run = .faulted .arithmetic) = true :=
  ⟨by decide, exists_next (p := fun t => decide (t.run = .faulted .arithmetic)) (by decide)⟩

/-- Every row of the fault table is reached. -/
theorem witness_FaultsAreThoseOfTheTable :
    let faults (i : Instr) (s : State) (r : FaultReason) : Bool :=
      decide (s.run = .running) && (nextOf (exec i s)).any (fun t => decide (t.run = .faulted r))
    let s := State.reset
    faults (.stordr 0 0x3FFF) s (.writeProtect 0x3FFF) ∧ faults (.storbmi 0 0) s (.writeProtect 0) ∧
    faults (.stordr 0 0xFFFF) s (.address 0xFFFF) ∧ faults (.loadrd 0 0xFFFF) s (.address 0xFFFF) ∧
    faults (.stordr 1 0xFF01) (s.setReg 1 0x0100) (.io 0xFF01 0x0100) ∧
    faults (.pushr 0) (s.setSp 0x4000) (.stack .overflow 0x4000) ∧
    faults (.call 0) (s.setSp 0xDF00) (.stack .guard 0xDF00) ∧
    faults .ret s (.stack .underflow 0xDEFF) ∧ faults (.popr 0) s (.stack .underflow 0xDEFF) ∧
    faults (.divrr 0 0) s .arithmetic := by decide

/-- NOP at the last address of program space. -/
theorem witness_NopOnlyAdvancesPc : Fetches (code 0x3FFF [0x00]) [0x00] := by unfold Fetches BytesAtPc; decide

theorem witness_HltHalts : Fetches (code 0x3FFF [0x01]) [0x01] := by unfold Fetches BytesAtPc; decide

/-- The hypothesis on the flag positions, at the default and elsewhere, for every statement that has it alone:
ComparesWriteOnlyTheFlags, AddWritesTheWrappedSum, SubWritesTheWrappedDifference, MulWritesTheLowProduct,
IncrAndDecrAreByTheLiteralOne. -/
theorem witness_FlagPositionsWellFormed :
    State.reset.cfg.flagBits.wellFormed ∧
      ({ State.reset with cfg := { defaultConfig with flagBits := otherFlags } } : State).cfg.flagBits.wellFormed := by decide

theorem witness_JumpsGoToTheirTarget :
    Fetches (code 0x3FFD [0x04, 0x00, 0x40]) [0x04, 0x00, 0x40] ∧ Fetches (code 0x0020 [0x05, 0x00, 0x01]) [0x05, 0x00, 0x01] ∧
    Fetches (code 0x0020 [0x06, 0x00, 0x01]) [0x06, 0x00, 0x01] ∧ Fetches (code 0x0020 [0x07, 0x00, 0x01]) [0x07, 0x00, 0x01] ∧
    Fetches (code 0x0020 [0x08, 0x00, 0x01]) [0x08, 0x00, 0x01] := by unfold Fetches BytesAtPc; decide

/-- Both ends of SP's range. -/
theorem witness_CallPushesTheReturnAddress :
    let s := code 0x0004 [0x09, 0x20, 0x00]
    (0x4000 < s.sp.toNat ∧ s.sp.toNat ≤ 0xDEFF ∧ Fetches s [0x09, 0x20, 0x00]) ∧
      (0x4000 < (s.setSp 0x4001).sp.toNat ∧ (s.setSp 0x4001).sp.toNat ≤ 0xDEFF) := by unfold Fetches BytesAtPc; decide

theorem witness_RetPopsThePc :
    let s := (code 0x0020 [0x0A]).setSp 0xDEFE
    s.sp.toNat < 0xDEFF ∧ Fetches s [0x0A] := by unfold Fetches BytesAtPc; decide

/-- Each clause of the ordinary stores, at the lowest and the highest address. -/
theorem witness_WordStoresWriteTwoBytes :
    let ordinary (ea : Word) : Bool := decide (0x4000 ≤ ea.toNat ∧ ea ≠ 0xFF01 ∧ ea ≠ 0xFFFF)
    ordinary 0x4000 ∧ ordinary 0xFFFE ∧ ordinary 0xFF00 ∧ ordinary ((State.reset.setReg 2 0x4000).reg 2) := by decide

theorem witness_ByteStoresWriteOneByte :
    let ordinary (ea : Word) : Bool := decide (0x4000 ≤ ea.toNat ∧ ea ≠ 0xFF01)
    ordinary 0x4000 ∧ ordinary 0xFFFF ∧ ordinary ((State.reset.setReg 2 0xFFFF).reg 2) := by decide

theorem witness_StoresToTxEmitOneByte :
    let s := (State.reset.setReg 1 0xFF01).setReg 2 0x00FF
    let s' : State := { s.setReg 2 0x0100 with cfg := { defaultConfig with txWide := .truncate } }
    (s.reg 2).toNat ≤ 0xFF ∧ s.reg 1 = 0xFF01 ∧ s'.cfg.txWide = .truncate ∧ 0xFF < (s'.reg 2).toNat ∧ s'.reg 1 = 0xFF01 := by
  decide

theorem witness_WideStoreToTxRaisesIoFault :
    let s := (State.reset.setReg 1 0xFF01).setReg 2 0x0100
    s.cfg.txWide = .fault ∧ 0xFF < (s.reg 2).toNat ∧ s.reg 1 = 0xFF01 ∧ 0xFF < (0x0100 : Word).toNat := by decide

/-- The addresses 0 and 0x3FFF; and a push and a call that fault, of another kind. -/
theorem witness_StoresBelowRamRaiseWriteProtectFault :
    let s := State.reset.setReg 1 0x3FFF
    ((0x3FFF : Word).toNat < 0x4000 ∧ (s.reg 1).toNat < 0x4000 ∧ (s.reg 0).toNat < 0x4000) ∧
      s.run = .running ∧ (∃ t, exec (.pushr 0) s = .next t ∧ decide (t.sp = 0xDEFD) = true) ∧
      ∃ t, exec (.call 0) (s.setSp 0x4000) = .next t ∧ decide (t.run = .faulted (.stack .overflow 0x4000)) = true :=
  ⟨by decide, by decide, exists_next (p := fun t => decide (t.sp = 0xDEFD)) (by decide),
    exists_next (p := fun t => decide (t.run = .faulted (.stack .overflow 0x4000))) (by decide)⟩

theorem witness_WordAccessAtLastAddressRaisesAddressFault : (State.reset.setReg 1 0xFFFF).reg 1 = 0xFFFF := by decide

theorem witness_WordLoadsReadTwoBytes :
    ((0x0000 : Word) ≠ 0xFF00 ∧ (0x0000 : Word) ≠ 0xFFFF) ∧ ((0xFF01 : Word) ≠ 0xFF00 ∧ (0xFF01 : Word) ≠ 0xFFFF) ∧
    ((0xFFFE : Word) ≠ 0xFF00 ∧ (0xFFFE : Word) ≠ 0xFFFF) ∧
    ((State.reset.setReg 1 0xFEFF).reg 1 ≠ 0xFF00 ∧ (State.reset.setReg 1 0xFEFF).reg 1 ≠ 0xFFFF) := by decide

theorem witness_ByteLoadsZeroExtend :
    (0xFFFF : Word) ≠ 0xFF00 ∧ (0xFF01 : Word) ≠ 0xFF00 ∧ (State.reset.setReg 1 0xFFFF).reg 1 ≠ 0xFF00 := by decide

theorem witness_LoadsFromRxTakeTheNextByte :
    let s := deliverInput [0x7A] (State.reset.setReg 1 0xFF00)
    s.consoleIn[s.inPos]? = some 0x7A ∧ s.reg 1 = 0xFF00 := by decide

/-- Exhausted at once, with both values of RX_EOI. -/
theorem witness_LoadsFromExhaustedRxFollowRxEoi :
    let s := State.reset.setReg 1 0xFF00
    let s' : State := { s with cfg := { defaultConfig with rxEoi := .value 0xFFFF } }
    (s.consoleIn.length ≤ s.inPos ∧ s.reg 1 = 0xFF00 ∧ s.cfg.rxEoi = .block) ∧
      (s'.consoleIn.length ≤ s'.inPos ∧ s'.reg 1 = 0xFF00 ∧ s'.cfg.rxEoi = .value 0xFFFF) := by decide

theorem witness_DeliveredInputWakesABlockedLoad :
    exec (.loadrd 1 0xFF00) State.reset = .fault .consoleBlocked ∧ State.reset.inPos ≤ State.reset.consoleIn.length :=
  ⟨rfl, by decide⟩

/-- Both ends of SP's range, for the statements about a push: PushWritesTwoBytesBelowSp, PushThenPopIsAnIdentity,
PushedValueLoadsByteSwapped. -/
theorem witness_PushWritesTwoBytesBelowSp :
    (0x4000 < State.reset.sp.toNat ∧ State.reset.sp.toNat ≤ 0xDEFF) ∧
      (0x4000 < (State.reset.setSp 0x4001).sp.toNat ∧ (State.reset.setSp 0x4001).sp.toNat ≤ 0xDEFF) := by decide

theorem witness_PopReadsTwoBytesAboveSp :
    (State.reset.setSp 0xDEFE).sp.toNat < 0xDEFF ∧ (State.reset.setSp 0).sp.toNat < 0xDEFF := by decide

theorem witness_PushOutsideTheStackRaisesStackFault :
    (State.reset.setSp 0x4000).sp.toNat ≤ 0x4000 ∧ 0xDEFF < (State.reset.setSp 0xDF00).sp.toNat := by decide

theorem witness_PopFromTheEmptyStackRaisesStackFault :
    0xDEFF ≤ State.reset.sp.toNat ∧ 0xDEFF ≤ (State.reset.setSp 0xFFFF).sp.toNat := by decide

/-- The state after the call itself is one from which the return goes back. -/
theorem witness_CallThenRetResumesAfterTheCall :
    State.reset.run = .running ∧
      ∃ t, exec (.call 0x0020) State.reset = .next t ∧ decide (t.run = .running) = true :=
  ⟨by decide, exists_next (p := fun t => decide (t.run = .running)) (by decide)⟩

/-- The lowest and the highest address, and one whose second byte is the RX port. -/
theorem witness_StoreThenLoadGivesTheValue :
    let meets (v : Word) : Bool := decide (0x4000 ≤ v.toNat ∧ v ≠ 0xFF00 ∧ v ≠ 0xFF01 ∧ v ≠ 0xFFFF)
    meets 0x4000 ∧ meets 0xFFFE ∧ meets 0xFEFF ∧ (0x4000 : Word) + 1 ≠ 0xFF00 := by decide

theorem witness_DivWritesTheQuotientOrFaults :
    State.reset.cfg.flagBits.wellFormed ∧ (State.reset.setReg 1 1).reg 1 ≠ 0 ∧ State.reset.reg 1 = 0 ∧
      (0xFFFF : Word) ≠ 0 := by decide

theorem witness_CarryAndZeroMeanOverflowBorrowEquality :
    let s := State.reset.setReg 0 0xFFFF
    let gives (i : Instr) (r : Reg) (v : Word) : Bool := (nextOf (exec i s)).any (fun t => decide (t.reg r = v))
    s.cfg.flagBits.wellFormed ∧ gives (.addrr 0 0) 0 0xFFFE ∧ gives (.addri 0 1) 0 0 ∧ gives (.subrr 1 0) 1 1 ∧
      gives (.subri 0 0xFFFF) 0 0 ∧ gives (.cmprr 1 0) 1 0 ∧ gives (.cmpri 0 0xFFFF) 0 0xFFFF ∧ gives (.incr 0) 0 0 ∧
      gives (.decr 1) 1 0xFFFF := by decide

/-- A writer that completes, a writer that faults, an instruction that writes no flag, and flag bytes that agree on the
one flag a jump reads. -/
theorem witness_FlagsAreWrittenAndReadOnlyAsListed :
    let s := State.reset
    s.run = .running ∧ (∃ t, exec (.incr 0) s = .next t ∧ decide (t.run = .running) = true) ∧
      (∃ t, exec (.divri 0 0) s = .next t ∧ decide (t.run ≠ .running) = true) ∧
      (∃ t, exec (.jmz 0x0100) s = .next t ∧ decide (t.run = .running) = true) ∧
      (s.setFlags 0xFE).flagZ = s.flagZ ∧ (s.setFlags 0xFD).flagC = s.flagC ∧ (s.setFlags 0xFB).flagS = s.flagS :=
  ⟨by decide, exists_next (p := fun t => decide (t.run = .running)) (by decide),
    exists_next (p := fun t => decide (t.run ≠ .running)) (by decide),
    exists_next (p := fun t => decide (t.run = .running)) (by decide), by decide, by decide, by decide⟩

/-- SP stays, falls and rises. -/
theorem witness_OnlyStackInstructionsMoveSp :
    (∃ t, exec .nop State.reset = .next t ∧ decide (t.sp = 0xDEFF) = true) ∧
    (∃ t, exec (.call 0) State.reset = .next t ∧ decide (t.sp = 0xDEFD) = true) ∧
    ∃ t, exec .ret (State.reset.setSp 0xDEFD) = .next t ∧ decide (t.sp = 0xDEFF) = true :=
  ⟨exists_next (p := fun t => decide (t.sp = 0xDEFF)) (by decide),
    exists_next (p := fun t => decide (t.sp = 0xDEFD)) (by decide),
    exists_next (p := fun t => decide (t.sp = 0xDEFF)) (by decide)⟩

/-- A step that emits and a step that consumes. -/
theorem witness_ConsoleMovesOnlyAtItsPorts :
    (∃ t, exec (.storbdr 0 0xFF01) State.reset = .next t ∧ decide (t.out = [0x00]) = true) ∧
    ∃ t, exec (.loadrd 0 0xFF00) (deliverInput [0x7A] State.reset) = .next t ∧ decide (t.inPos = 1) = true :=
  ⟨exists_next (p := fun t => decide (t.out = [0x00])) (by decide), exists_next (p := fun t => decide (t.inPos = 1)) (by decide)⟩

theorem witness_TxByteChangesOnlyThroughRxStore :
    ∃ t, exec (.stordr 0 0xFF00) (State.reset.setReg 0 0x4241) = .next t ∧
      decide (t.readByte 0xFF01 ≠ (State.reset.setReg 0 0x4241).readByte 0xFF01) = true :=
  exists_next (p := fun t => decide (t.readByte 0xFF01 ≠ (State.reset.setReg 0 0x4241).readByte 0xFF01)) (by decide)

/-- A store step and the ends of program space; the same step is a witness for ParametersAreNeverWritten and, with the
invariants of its first state, for StepKeepsTheInvariant and StepKeepsMemoryCanonical. -/
theorem witness_ProgramSpaceIsNeverWritten :
    (∃ t, step (boot [0x12, 0x00, 0x00, 0x40]) = .next t ∧ decide (t.run = .running) = true) ∧
      (0x0000 : Word).toNat < 0x4000 ∧ (0x3FFF : Word).toNat < 0x4000 :=
  ⟨exists_next (p := fun t => decide (t.run = .running)) (by decide), by decide, by decide⟩

theorem witness_StepKeepsTheInvariant : Invariant (boot [0x17, 0x10]) ∧
    ∃ t, step (boot [0x17, 0x10]) = .next t ∧ decide (t.sp = 0xDEFD) = true := by
  refine ⟨?_, exists_next (p := fun t => decide (t.sp = 0xDEFD)) (by decide)⟩
  unfold Invariant FlagsClean StackInRange PcInProgramSpace InputWithinBounds
  decide

theorem witness_StepKeepsMemoryCanonical :
    Memory.wf (boot [0x17, 0x10]).mem ∧ ∃ t, step (boot [0x17, 0x10]) = .next t ∧ decide (t.sp = 0xDEFD) = true :=
  ⟨by decide, exists_next (p := fun t => decide (t.sp = 0xDEFD)) (by decide)⟩

/-- Two memories written in a different order. -/
theorem witness_CanonicalMemoriesWithEqualBytesAreEqual :
    let s := (State.reset.writeByte 0x4000 1).writeByte 0x5000 2
    let t := (State.reset.writeByte 0x5000 2).writeByte 0x4000 1
    Memory.wf s.mem ∧ Memory.wf t.mem ∧ ∀ a : Word, t.readByte a = s.readByte a := by
  refine ⟨by decide, by decide, fun a => ?_⟩
  simp only [readByte_writeByte]
  split <;> split <;> first | rfl | (subst_vars; contradiction)

theorem witness_ResetMeetsTheInvariants : (loadImage [0x11] State.reset).isSome = true := by decide

/-- An image of length 0, and images at and beyond the limit: `test_image_at_the_limit`, `test_image_too_long`. -/
theorem witness_ResetStateIsTheLoadedImage : ([] : List Byte).length ≤ 65536 := by decide

/-- Two states with different positions and flag bytes and the same three flags, Z alone set, that both step. -/
theorem witness_FlagPositionsAreUnobservable :
    let s := (boot [0x05, 0x00, 0x01]).setFlags 0x01
    let s' : State := { s with flags := 0x80, cfg := { s.cfg with flagBits := otherFlags } }
    s.cfg.flagBits.wellFormed ∧ s'.cfg.flagBits.wellFormed ∧ s'.flagZ = s.flagZ ∧ s'.flagC = s.flagC ∧
      s'.flagS = s.flagS ∧ after State.pc s = some 0x0100 ∧ after State.pc s' = some 0x0100 := by decide

end Sys2Proof.Tests
end

/-! SUPPORT. The scope of the model (00_scope.md): what is a parameter of a run and not state. -/

namespace Sys2Proof.Machine

/-- Settles O53, by the cases of a step: the two faults taken before execution change only PC and the run status,
and an instruction keeps the parameters (`exec_keeps_parameters`), as do the advance of PC before it and the bounds
check after it (00_scope.md R6). -/
theorem parametersAreNeverWritten : Obligations.ParametersAreNeverWritten := by
  intro s t h
  obtain ⟨-, ⟨-, rfl⟩ | ⟨-, rfl⟩ | ⟨i, u, -, -, hx, rfl⟩⟩ := step_next_cases h
  · exact ⟨rfl, rfl⟩
  · exact ⟨rfl, rfl⟩
  · obtain ⟨hcfg, hin⟩ := exec_keeps_parameters hx
    exact ⟨(boundsCheck_cfg u).trans hcfg, (boundsCheck_consoleIn u).trans hin⟩

end Sys2Proof.Machine

/-! SUPPORT. The processor state (10_state.md). First what an instruction does with the flags: it computes all three
anew, or it hands the flag byte on as it found it (R14, R15). From it follow what a step keeps of the flags and what it
cannot see of them. -/

namespace Sys2Proof.Machine

/-- The state with other flag positions and another flag byte: what two states that differ in the flags alone differ
in. -/
def State.withFlags (p : FlagBits) (f : Byte) (s : State) : State :=
  { s with flags := f, cfg := { s.cfg with flagBits := p } }

/-- The instructions that write the flags (R15). -/
@[simp] def flagWriters : List Mnemonic :=
  [.addrr, .addri, .subrr, .subri, .mulrr, .mulri, .divrr, .divri, .incr, .decr, .cmprr, .cmpri]

/-- `s'` shows the instruction `i` the flag that it reads, if it reads one, as `s` does (R15). -/
def SameFlagRead (i : Instr) (s s' : State) : Prop :=
  (i.mnemonic ∈ [.jmz, .jnz] → s'.flagZ = s.flagZ) ∧ (i.mnemonic = .jmc → s'.flagC = s.flagC) ∧
    (i.mnemonic = .jms → s'.flagS = s.flagS)

/-- A function of the next state, applied where there is one. -/
def mapNext (g : State → State) : Host.Outcome State Fault Refusal → Host.Outcome State Fault Refusal
  | .next t    => .next (g t)
  | .fault r   => .fault r
  | .refused r => .refused r

/-- A function of the state after an access, applied where the access is done. -/
def Access.mapState {α : Type} (g : State → State) : Access α → Access α
  | .done v t => .done v (g t)
  | .raised r => .raised r
  | .blocked  => .blocked

variable (p : FlagBits) (f : Byte)

/-! ### What the flags do not reach -/

@[simp] theorem withFlags_x (s : State) : (s.withFlags p f).x = s.x := rfl
@[simp] theorem withFlags_pc (s : State) : (s.withFlags p f).pc = s.pc := rfl
@[simp] theorem withFlags_sp (s : State) : (s.withFlags p f).sp = s.sp := rfl
@[simp] theorem withFlags_flags (s : State) : (s.withFlags p f).flags = f := rfl
@[simp] theorem withFlags_mem (s : State) : (s.withFlags p f).mem = s.mem := rfl
@[simp] theorem withFlags_run (s : State) : (s.withFlags p f).run = s.run := rfl
@[simp] theorem withFlags_out (s : State) : (s.withFlags p f).out = s.out := rfl
@[simp] theorem withFlags_inPos (s : State) : (s.withFlags p f).inPos = s.inPos := rfl
@[simp] theorem withFlags_consoleIn (s : State) : (s.withFlags p f).consoleIn = s.consoleIn := rfl
@[simp] theorem withFlags_cfg (s : State) : (s.withFlags p f).cfg = { s.cfg with flagBits := p } := rfl

theorem withFlags_self (s : State) : s.withFlags s.cfg.flagBits s.flags = s := rfl

/-- An end that only hands the flags on gives alike outcomes for alike accesses. -/
theorem finish_withFlags {α : Type} (s : State) (k : α → State → State) (acc : Access α)
    (hk : ∀ v t, k v (t.withFlags p f) = (k v t).withFlags p f) :
    (acc.mapState (.withFlags p f)).finish (s.withFlags p f) k = mapNext (.withFlags p f) (acc.finish s k) := by
  cases acc with
  | done v t => exact congrArg Host.Outcome.next (hk v t)
  | raised r => rfl
  | blocked => rfl

theorem memWrite_withFlags (a : Word) (w : Width) (v : Word) (s : State) :
    memWrite a w v (s.withFlags p f) = (memWrite a w v s).withFlags p f := by cases w <;> rfl

theorem memRead_withFlags (a : Word) (w : Width) (s : State) : memRead a w (s.withFlags p f) = memRead a w s := by
  cases w <;> rfl

theorem value_withFlags (o : Operand) (s : State) : o.value (s.withFlags p f) = o.value s := by cases o <;> rfl

theorem consoleRead_withFlags (s : State) :
    consoleRead (s.withFlags p f) = (consoleRead s).mapState (.withFlags p f) := by
  simp only [consoleRead, withFlags_consoleIn, withFlags_inPos, withFlags_cfg]
  cases s.consoleIn[s.inPos]? with
  | some b => rfl
  | none => cases s.cfg.rxEoi <;> rfl

theorem dataLoad_withFlags (a : Word) (w : Width) (s : State) :
    dataLoad a w (s.withFlags p f) = (dataLoad a w s).mapState (.withFlags p f) := by
  simp only [dataLoad, consoleRead_withFlags, memRead_withFlags, apply_ite (Access.mapState _)]; rfl

theorem dataStore_withFlags (a : Word) (w : Width) (v : Word) (s : State) :
    dataStore a w v (s.withFlags p f) = (dataStore a w v s).mapState (.withFlags p f) := by
  simp only [dataStore, memWrite_withFlags, apply_ite (Access.mapState _)]; rfl

theorem push16_withFlags (v : Word) (s : State) :
    push16 v (s.withFlags p f) = (push16 v s).mapState (.withFlags p f) := by
  simp only [push16, apply_ite (Access.mapState _)]; rfl

theorem pop16_withFlags (s : State) : pop16 (s.withFlags p f) = (pop16 s).mapState (.withFlags p f) := by
  simp only [pop16, apply_ite (Access.mapState _)]; rfl

theorem loadInto_withFlags (d : Reg) (ea : Operand) (w : Width) (s : State) :
    loadInto d ea w (s.withFlags p f) = mapNext (.withFlags p f) (loadInto d ea w s) := by
  rw [loadInto, value_withFlags, dataLoad_withFlags]; exact finish_withFlags p f s _ _ fun _ _ => rfl

theorem storeAt_withFlags (ea : Operand) (w : Width) (v : Operand) (s : State) :
    storeAt ea w v (s.withFlags p f) = mapNext (.withFlags p f) (storeAt ea w v s) := by
  rw [storeAt, value_withFlags, value_withFlags, dataStore_withFlags]
  exact finish_withFlags p f s _ _ fun _ _ => rfl

theorem jumpIf_withFlags (taken : Bool) (v : Word) (s : State) :
    jumpIf taken v (s.withFlags p f) = mapNext (.withFlags p f) (jumpIf taken v s) := by cases taken <;> rfl

theorem boundsCheck_withFlags (t : State) :
    boundsCheck (t.withFlags p f) = (boundsCheck t).withFlags p f := by
  simp only [boundsCheck, apply_ite (State.withFlags p f)]; rfl

/-! ### What an instruction does with the flags -/

/-- The flag byte `fl p`, given at any positions `p`, holds three flags that do not depend on the positions. -/
def FlagsAnywhere (fl : FlagBits → Byte) : Prop := ∃ z c g, ∀ p, fl p = flagByte p z c g

theorem flagsAnywhere_add (a b r : Word) : FlagsAnywhere (flagsAdd · a b r) := ⟨_, _, _, fun _ => rfl⟩
theorem flagsAnywhere_sub (a b r : Word) : FlagsAnywhere (flagsSub · a b r) := ⟨_, _, _, fun _ => rfl⟩
theorem flagsAnywhere_div (a b q : Word) : FlagsAnywhere (flagsDiv · a b q) := ⟨_, _, _, fun _ => rfl⟩

/-- What `i` executed from `s` does with the flags, said of every flag byte `f` and every positions `p` that `s` could
have had in place of its own. -/
inductive FlagUse (i : Instr) (s : State) : Prop where
  /-- One of the twelve writers completed: the flag byte is that of three new flags, which the old ones do not reach. -/
  | computes (hi : i.mnemonic ∈ flagWriters) (u : State) (hu : u.run = s.run) (fl : FlagBits → Byte)
      (hfl : FlagsAnywhere fl) (h : ∀ p f, exec i (s.withFlags p f) = .next (u.withFlags p (fl p)))
  /-- No flag is written, and the outcome depends on no flag but the one that the instruction reads. -/
  | keeps (hi : i.mnemonic ∉ flagWriters ∨ ∃ r, exec i s = .next (raise r s))
      (h : ∀ p f, SameFlagRead i s (s.withFlags p f) →
        exec i (s.withFlags p f) = mapNext (.withFlags p f) (exec i s))

section
variable {i : Instr} {s : State}

theorem flagUse_addTo (d : Reg) (b : Word) (hi : i.mnemonic ∈ flagWriters)
    (h : ∀ p f, exec i (s.withFlags p f) = addTo d b (s.withFlags p f)) : FlagUse i s :=
  .computes hi (s.setReg d (s.reg d + b)) rfl _ (flagsAnywhere_add (s.reg d) b (s.reg d + b)) h

theorem flagUse_subFrom (d : Reg) (b : Word) (hi : i.mnemonic ∈ flagWriters)
    (h : ∀ p f, exec i (s.withFlags p f) = subFrom d b (s.withFlags p f)) : FlagUse i s :=
  .computes hi (s.setReg d (s.reg d - b)) rfl _ (flagsAnywhere_sub (s.reg d) b (s.reg d - b)) h

theorem flagUse_mulBy (d : Reg) (b : Word) (hi : i.mnemonic ∈ flagWriters)
    (h : ∀ p f, exec i (s.withFlags p f) = mulBy d b (s.withFlags p f)) : FlagUse i s :=
  .computes hi (s.setReg d (s.reg d * b)) rfl _ (flagsAnywhere_add (s.reg d) b (s.reg d * b)) h

theorem flagUse_compare (a b : Word) (hi : i.mnemonic ∈ flagWriters)
    (h : ∀ p f, exec i (s.withFlags p f) = compare a b (s.withFlags p f)) : FlagUse i s :=
  .computes hi s rfl _ (flagsAnywhere_sub a b (a - b)) h

/-- A division by zero faults and keeps the flags; any other computes them (43_arithmetic.md R139, R143). -/
theorem flagUse_divBy (d : Reg) (b : Word) (hi : i.mnemonic ∈ flagWriters)
    (h : ∀ p f, exec i (s.withFlags p f) = divBy d b (s.withFlags p f)) : FlagUse i s := by
  by_cases hb : b = 0
  · have hf : ∀ p f, exec i (s.withFlags p f) = .next (raise .arithmetic (s.withFlags p f)) :=
      fun p f => (h p f).trans (if_pos hb)
    have hs : exec i s = .next (raise .arithmetic s) := hf s.cfg.flagBits s.flags
    exact .keeps (.inr ⟨_, hs⟩) fun p f _ => by rw [hf, hs]; rfl
  · exact .computes hi (s.setReg d (s.reg d / b)) rfl _ (flagsAnywhere_div (s.reg d) b (s.reg d / b)) fun p f =>
      (h p f).trans (if_neg hb)

theorem flagUse_jumpIf (taken : State → Bool) (v : Word) (hi : i.mnemonic ∉ flagWriters)
    (h : ∀ p f, exec i (s.withFlags p f) = jumpIf (taken (s.withFlags p f)) v (s.withFlags p f))
    (hr : ∀ p f, SameFlagRead i s (s.withFlags p f) → taken (s.withFlags p f) = taken s) : FlagUse i s :=
  .keeps (.inl hi) fun p f hread => by
    have hs : exec i s = jumpIf (taken s) v s := h s.cfg.flagBits s.flags
    rw [h, hr p f hread, jumpIf_withFlags, hs]

theorem flagUse_push {k : State → State} (v : Word) (hi : i.mnemonic ∉ flagWriters)
    (h : ∀ p f, exec i (s.withFlags p f) = (push16 v (s.withFlags p f)).finish (s.withFlags p f) (fun _ t => k t))
    (hk : ∀ p f t, k (State.withFlags p f t) = (k t).withFlags p f) : FlagUse i s :=
  .keeps (.inl hi) fun p f _ => by
    have hs : exec i s = (push16 v s).finish s (fun _ t => k t) := h s.cfg.flagBits s.flags
    rw [h, push16_withFlags, hs]
    exact finish_withFlags p f s _ _ fun _ => hk p f

theorem flagUse_pop {k : Word → State → State} (hi : i.mnemonic ∉ flagWriters)
    (h : ∀ p f, exec i (s.withFlags p f) = (pop16 (s.withFlags p f)).finish (s.withFlags p f) k)
    (hk : ∀ p f v t, k v (State.withFlags p f t) = (k v t).withFlags p f) : FlagUse i s :=
  .keeps (.inl hi) fun p f _ => by
    have hs : exec i s = (pop16 s).finish s k := h s.cfg.flagBits s.flags
    rw [h, pop16_withFlags, hs]
    exact finish_withFlags p f s _ _ (hk p f)

end

/-- Every instruction computes the flags or keeps them (R15). -/
theorem flagUse (i : Instr) (s : State) : FlagUse i s := by
  cases i with
  | addrr d b => exact flagUse_addTo d (s.reg b) (by simp [Instr.mnemonic]) fun _ _ => rfl
  | addri d v => exact flagUse_addTo d v (by simp [Instr.mnemonic]) fun _ _ => rfl
  | subrr d b => exact flagUse_subFrom d (s.reg b) (by simp [Instr.mnemonic]) fun _ _ => rfl
  | subri d v => exact flagUse_subFrom d v (by simp [Instr.mnemonic]) fun _ _ => rfl
  | mulrr d b => exact flagUse_mulBy d (s.reg b) (by simp [Instr.mnemonic]) fun _ _ => rfl
  | mulri d v => exact flagUse_mulBy d v (by simp [Instr.mnemonic]) fun _ _ => rfl
  | divrr d b => exact flagUse_divBy d (s.reg b) (by simp [Instr.mnemonic]) fun _ _ => rfl
  | divri d v => exact flagUse_divBy d v (by simp [Instr.mnemonic]) fun _ _ => rfl
  | incr d => exact flagUse_addTo d 1 (by simp [Instr.mnemonic]) fun _ _ => rfl
  | decr d => exact flagUse_subFrom d 1 (by simp [Instr.mnemonic]) fun _ _ => rfl
  | cmprr a b => exact flagUse_compare (s.reg a) (s.reg b) (by simp [Instr.mnemonic]) fun _ _ => rfl
  | cmpri a v => exact flagUse_compare (s.reg a) v (by simp [Instr.mnemonic]) fun _ _ => rfl
  | jmp v => exact .keeps (.inl (by simp [Instr.mnemonic])) fun p f _ => jumpIf_withFlags p f true v s
  | jmz v =>
    refine flagUse_jumpIf State.flagZ v (by simp [Instr.mnemonic]) (fun _ _ => rfl) ?_
    rintro p f ⟨hz, -⟩; exact hz (by simp [Instr.mnemonic])
  | jnz v =>
    refine flagUse_jumpIf (!State.flagZ ·) v (by simp [Instr.mnemonic]) (fun _ _ => rfl) ?_
    rintro p f ⟨hz, -⟩; exact congrArg (!·) (hz (by simp [Instr.mnemonic]))
  | jmc v =>
    refine flagUse_jumpIf State.flagC v (by simp [Instr.mnemonic]) (fun _ _ => rfl) ?_
    rintro p f ⟨-, hc, -⟩; exact hc rfl
  | jms v =>
    refine flagUse_jumpIf State.flagS v (by simp [Instr.mnemonic]) (fun _ _ => rfl) ?_
    rintro p f ⟨-, -, hs⟩; exact hs rfl
  | pushr a =>
    exact flagUse_push (k := fun t => t) (s.reg a) (by simp [Instr.mnemonic]) (fun _ _ => rfl) fun _ _ _ => rfl
  | call v =>
    exact flagUse_push (k := fun t => t.setPc v) s.pc (by simp [Instr.mnemonic]) (fun _ _ => rfl) fun _ _ _ => rfl
  | popr a =>
    exact flagUse_pop (k := fun v t => t.setReg a v) (by simp [Instr.mnemonic]) (fun _ _ => rfl) fun _ _ _ _ => rfl
  | ret =>
    exact flagUse_pop (k := fun v t => t.setPc v) (by simp [Instr.mnemonic]) (fun _ _ => rfl) fun _ _ _ _ => rfl
  | stordr | stormi | stormr | storbdr | storbmi | storbmr =>
    exact .keeps (.inl (by simp [Instr.mnemonic])) fun p f _ => storeAt_withFlags p f _ _ _ s
  | loadrd | loadrm | loadbrd | loadbrm =>
    exact .keeps (.inl (by simp [Instr.mnemonic])) fun p f _ => loadInto_withFlags p f _ _ _ s
  | nop | hlt | movrr | movri | andrr | andri | orrr | orri | xorrr | xorri | not | shr | shl =>
    exact .keeps (.inl (by simp [Instr.mnemonic])) fun _ _ _ => rfl

/-! ### What follows for the flags of the next state -/

/-- What keeps the flags keeps the flag byte. -/
theorem flags_eq_of_keeps {i : Instr} {s t : State} (hn : exec i s = .next t)
    (h : ∀ p f, SameFlagRead i s (s.withFlags p f) →
      exec i (s.withFlags p f) = mapNext (.withFlags p f) (exec i s)) : t.flags = s.flags := by
  have hs : exec i s = mapNext (.withFlags s.cfg.flagBits s.flags) (exec i s) :=
    h s.cfg.flagBits s.flags ⟨fun _ => rfl, fun _ => rfl, fun _ => rfl⟩
  rw [hn] at hs
  have ht : t = t.withFlags s.cfg.flagBits s.flags := Host.Outcome.next.inj hs
  rw [ht, withFlags_flags]

/-- The state with another flag byte at its own positions. -/
theorem setFlags_eq_withFlags (s : State) (f : Byte) : s.setFlags f = s.withFlags s.cfg.flagBits f := rfl

/-- Settles O48, by the two uses of the flags (`flagUse`): a writer that completes computes the byte of three flags that
no old flag reaches, and everything else hands the flags on. -/
theorem flagsAreWrittenAndReadOnlyAsListed : Obligations.FlagsAreWrittenAndReadOnlyAsListed := by
  intro i s f hrun writers s'
  cases flagUse i s with
  | computes hi u hu fl _ h =>
    have next_eq : ∀ {t}, exec i s = .next t → t = u.withFlags s.cfg.flagBits (fl s.cfg.flagBits) := fun hn =>
      Host.Outcome.next.inj (hn.symm.trans (h s.cfg.flagBits s.flags))
    have excluded : ∀ {t}, exec i s = .next t → ¬ (i.mnemonic ∉ writers ∨ t.run ≠ .running) := by
      rintro t hn (hm | hr)
      · exact hm hi
      · rw [next_eq hn] at hr; exact hr (hu.trans hrun)
    refine ⟨fun t hn ho => absurd ho (excluded hn), fun t hn _ _ => ?_, fun t hn ho => absurd ho (excluded hn)⟩
    rw [next_eq hn]; exact h s.cfg.flagBits f
  | keeps hi h =>
    refine ⟨fun t hn _ => flags_eq_of_keeps hn h, fun t hn hm hr => ?_, fun t hn _ hz hc hs => ?_⟩
    · obtain hm' | ⟨r, hf⟩ := hi
      · exact absurd hm hm'
      · cases hn.symm.trans hf; cases hr
    · have hs' : exec i s' = mapNext (.withFlags s.cfg.flagBits f) (exec i s) := h _ f ⟨hz, hc, hs⟩
      rw [hs', hn, setFlags_eq_withFlags, (exec_keeps_parameters hn).1]; rfl

end Sys2Proof.Machine

/-! SUPPORT. What a step cannot see of the flag positions (10_state.md R14). -/

namespace Sys2Proof.Machine

/-- Two states alike but for the flag positions and the flag byte, with the same Z, C and S. -/
def FlagsAlike (s s' : State) : Prop :=
  (∃ p f, s' = { s with flags := f, cfg := { s.cfg with flagBits := p } }) ∧
    s.cfg.flagBits.wellFormed ∧ s'.cfg.flagBits.wellFormed ∧
    s'.flagZ = s.flagZ ∧ s'.flagC = s.flagC ∧ s'.flagS = s.flagS

/-- From alike states the two outcomes are of the same kind, with alike next states. A refusal needs no partner: nothing
is refused (`exec_ne_refused`). -/
def OutcomesAlike : (o o' : Host.Outcome State Fault Refusal) → Prop
  | .next t, o'    => ∃ t', o' = .next t' ∧ FlagsAlike t t'
  | .fault r, o'   => o' = .fault r
  | .refused _, _  => True

variable {p : FlagBits} {f : Byte} {s t : State}

/-- States that stay alike: the flag byte and the parameters are those of two alike states. -/
theorem FlagsAlike.of_flags_eq (h : FlagsAlike s (s.withFlags p f)) (hf : t.flags = s.flags) (hc : t.cfg = s.cfg) :
    FlagsAlike t (t.withFlags p f) := by
  obtain ⟨-, hs, hs', hz, hcy, hsg⟩ := h
  refine ⟨⟨p, f, rfl⟩, by rw [hc]; exact hs, hs', ?_, ?_, ?_⟩
  · rw [State.flagZ.eq_def t, hf, hc]; exact hz
  · rw [State.flagC.eq_def t, hf, hc]; exact hcy
  · rw [State.flagS.eq_def t, hf, hc]; exact hsg

/-- States that become alike: each has the byte of the same three flags, at its own positions. -/
theorem flagsAlike_computed {q : FlagBits} (hq : q.wellFormed) (hp : p.wellFormed) {fl : FlagBits → Byte}
    (hfl : FlagsAnywhere fl) : FlagsAlike (t.withFlags q (fl q)) (t.withFlags p (fl p)) := by
  obtain ⟨z, c, g, hfl⟩ := hfl
  rw [hfl, hfl]
  exact ⟨⟨p, _, rfl⟩, hq, hp, (flagByte_zero hp z c g).trans (flagByte_zero hq z c g).symm,
    (flagByte_carry hp z c g).trans (flagByte_carry hq z c g).symm,
    (flagByte_sign hp z c g).trans (flagByte_sign hq z c g).symm⟩

/-- No instruction sees the flag positions. -/
theorem exec_alike (i : Instr) (h : FlagsAlike s (s.withFlags p f)) :
    OutcomesAlike (exec i s) (exec i (s.withFlags p f)) := by
  have ⟨_, hs, hs', hz, hc, hg⟩ := h
  cases flagUse i s with
  | computes _ u _ _ hfl hx =>
    have e := hx s.cfg.flagBits s.flags
    rw [withFlags_self] at e
    rw [e, hx]
    exact ⟨_, rfl, flagsAlike_computed hs hs' hfl⟩
  | keeps _ hx =>
    rw [hx p f ⟨fun _ => hz, fun _ => hc, fun _ => hg⟩]
    cases hn : exec i s with
    | next t => exact ⟨_, rfl, h.of_flags_eq (flags_eq_of_keeps hn hx) (exec_keeps_parameters hn).1⟩
    | fault r => exact rfl
    | refused r => exact trivial

theorem OutcomesAlike.afterInstruction {o o' : Host.Outcome State Fault Refusal} (h : OutcomesAlike o o') :
    OutcomesAlike (afterInstruction o) (afterInstruction o') := by
  cases o with
  | next t =>
    obtain ⟨_, rfl, ⟨p, f, rfl⟩, ht⟩ := h
    refine ⟨_, congrArg Host.Outcome.next (boundsCheck_withFlags p f t), ?_⟩
    exact FlagsAlike.of_flags_eq (s := t) ⟨⟨p, f, rfl⟩, ht⟩ (boundsCheck_flags t) (boundsCheck_cfg t)
  | fault r => rw [show o' = .fault r from h]; exact rfl
  | refused r => exact trivial

/-- No step sees the flag positions: the fetch and the decoder read neither, and no instruction does. -/
theorem step_alike (h : FlagsAlike s (s.withFlags p f)) : OutcomesAlike (step s) (step (s.withFlags p f)) := by
  cases hr : s.run with
  | halted =>
    have stopped : ∀ u : State, u.run = .halted → step u = .fault .halted := fun u hu => by rw [step, hu]
    rw [stopped s hr, stopped (s.withFlags p f) hr]; exact rfl
  | faulted r =>
    have stopped : ∀ u : State, u.run = .faulted r → step u = .fault (.faulted r) := fun u hu => by rw [step, hu]
    rw [stopped s hr, stopped (s.withFlags p f) hr]; exact rfl
  | running =>
    rcases Nat.lt_or_ge s.pc.toNat 0x4000 with hp | hp
    · cases hd : decode s.cfg.opc (fetchBytes s) with
      | error e =>
        rw [step_of_error hr hp hd, step_of_error (s := s.withFlags p f) hr hp hd]
        exact ⟨_, rfl, h.of_flags_eq (t := decodeFault s) rfl rfl⟩
      | ok d =>
        rw [step_of_decode hr hp hd, step_of_decode (s := s.withFlags p f) hr hp hd]
        exact (exec_alike d.1 (h.of_flags_eq (t := advance d.1 s) rfl rfl)).afterInstruction
    · rw [step_of_fetch_outside hr hp, step_of_fetch_outside (s := s.withFlags p f) hr hp]
      exact ⟨_, rfl, h.of_flags_eq (t := raise (.bounds s.pc) s) rfl rfl⟩

/-- Settles O59: alike states take alike steps (`step_alike`). -/
theorem flagPositionsAreUnobservable : Obligations.FlagPositionsAreUnobservable := by
  rintro s _ ⟨⟨p, f, rfl⟩, h⟩
  have hs : OutcomesAlike (step s) (step (s.withFlags p f)) := step_alike ⟨⟨p, f, rfl⟩, h⟩
  refine ⟨fun t hn => ?_, fun r hn => ?_⟩
  · rw [hn] at hs; exact hs
  · rw [hn] at hs; exact hs

end Sys2Proof.Machine

/-! SUPPORT. The invariants of the states reached from reset (10_state.md R23), and the canonical memory. -/

namespace Sys2Proof.Machine

/-- What no change of PC or of the run status disturbs and every instruction keeps, every step keeps. -/
theorem step_keeps {P : State → Prop} (hpc : ∀ s v, P s → P (s.setPc v))
    (hrun : ∀ s r, P s → P { s with run := r }) (hexec : ∀ {i s t}, exec i s = .next t → P s → P t)
    {s t : State} (h : step s = .next t) (hs : P s) : P t := by
  obtain ⟨-, ⟨-, rfl⟩ | ⟨-, rfl⟩ | ⟨i, u, -, -, hx, rfl⟩⟩ := step_next_cases h
  · exact hrun s _ hs
  · exact hrun _ _ (hpc s _ hs)
  · rw [boundsCheck_eq]; exact hrun u _ (hexec hx (hpc s _ hs))

/-- Settles O55, by the instructions' rule `exec_keeps_wf`. -/
theorem stepKeepsMemoryCanonical : Obligations.StepKeepsMemoryCanonical := fun _ _ hw h =>
  step_keeps (P := fun s => Memory.wf s.mem) (fun _ _ h => h) (fun _ _ h => h) exec_keeps_wf h hw

/-- The five bits that are no flags are 0 in a computed flag byte, and an instruction that computes none keeps them
(R23 (a)). -/
theorem exec_keeps_flagsClean {i : Instr} {s t : State} (hn : exec i s = .next t) (hc : FlagsClean s) :
    FlagsClean t := by
  cases flagUse i s with
  | computes _ u _ _ hfl h =>
    obtain ⟨z, c, g, hfl⟩ := hfl
    obtain rfl := Host.Outcome.next.inj (hn.symm.trans (h s.cfg.flagBits s.flags))
    intro k h1 h2 h3
    rw [withFlags_flags, hfl]
    exact flagByte_unused _ z c g h1 h2 h3
  | keeps _ h =>
    unfold FlagsClean
    rw [flags_eq_of_keeps hn h, (exec_keeps_parameters hn).1]
    exact hc

/-- A push leaves SP odd and at least 0x3FFF, a pop odd and at most 0xDEFF; nothing else moves it (R23 (b)). -/
theorem exec_keeps_stackInRange {i : Instr} {s t : State} (hn : exec i s = .next t) (hs : StackInRange s) :
    StackInRange t := by
  have ⟨hodd, hlo, hhi⟩ := hs
  cases exec_next_ends hn with
  | inside _ h => rw [h]; exact hs
  | halts _ => exact hs
  | raises r => exact hs
  | memory a w v => rw [memWrite_eq]; exact hs
  | emit b => exact hs
  | take d b => exact hs
  | push v _ hg _ h =>
    have hg : 0x4000 < s.sp.toNat := hg
    have e : t.sp.toNat = s.sp.toNat - 2 := by rw [h]; simp only [pushed_sp]; bv_omega
    unfold StackInRange; omega
  | pop _ hb h =>
    have hb : s.sp.toNat < 0xDEFF := hb
    have e : t.sp.toNat = s.sp.toNat + 2 := by rw [h]; bv_omega
    unfold StackInRange; omega

/-- A console byte is consumed only where there is one (R21). -/
theorem exec_keeps_inputWithinBounds {i : Instr} {s t : State} (hn : exec i s = .next t) (hs : InputWithinBounds s) :
    InputWithinBounds t := by
  cases exec_next_ends hn with
  | inside _ h => rw [h]; exact hs
  | halts _ => exact hs
  | raises r => exact hs
  | memory a w v => rw [memWrite_eq]; exact hs
  | emit b => exact hs
  | take d b h => exact (List.getElem?_eq_some_iff.1 h).1
  | push v _ _ _ h => rw [h]; exact hs
  | pop _ _ h => rw [h]; exact hs

/-- What the bounds check leaves RUNNING has its PC in program space (40_run_loop.md R84). -/
theorem pcInProgramSpace_boundsCheck (u : State) : PcInProgramSpace (boundsCheck u) := by
  unfold PcInProgramSpace boundsCheck
  split
  · intro hr; cases hr
  · rename_i h; intro hr; exact BitVec.not_le.1 fun hp => h ⟨hr, hp⟩

/-- Every step, whatever its state, ends with PC in program space or not RUNNING (R23 (c)). -/
theorem step_pcInProgramSpace {s t : State} (h : step s = .next t) : PcInProgramSpace t := by
  obtain ⟨-, ⟨-, rfl⟩ | ⟨-, rfl⟩ | ⟨i, u, -, -, -, rfl⟩⟩ := step_next_cases h
  · intro hr; cases hr
  · intro hr; cases hr
  · exact pcInProgramSpace_boundsCheck u

/-- Settles O54, part by part of the invariant. -/
theorem stepKeepsTheInvariant : Obligations.StepKeepsTheInvariant := by
  rintro s t ⟨hflags, hstack, -, hin⟩ h
  exact ⟨step_keeps (fun _ _ h => h) (fun _ _ h => h) exec_keeps_flagsClean h hflags,
    step_keeps (fun _ _ h => h) (fun _ _ h => h) exec_keeps_stackInRange h hstack, step_pcInProgramSpace h,
    step_keeps (fun _ _ h => h) (fun _ _ h => h) exec_keeps_inputWithinBounds h hin⟩

/-- The invariants do not speak of the memory. -/
theorem Invariant.with_mem {s : State} (h : Invariant s) (m : Memory) : Invariant { s with mem := m } := h

theorem invariant_reset : Invariant State.reset := by
  unfold Invariant FlagsClean StackInRange PcInProgramSpace InputWithinBounds; decide

/-- What the Loader answers: the state with the image written from address 0 on (70_reset_and_hazards.md R201). -/
theorem loadImage_some {image : List Byte} {s t : State} (h : loadImage image s = some t) :
    image.length ≤ 65536 ∧ t = { s with mem := Memory.writeBytes s.mem 0 image } := by
  unfold loadImage at h
  split at h
  · rename_i hl; exact ⟨hl, (Option.some.inj h).symm⟩
  · cases h

/-- Settles O57: the reset state by evaluation, and the Loader changes only the memory, by writes that keep its form. -/
theorem resetMeetsTheInvariants : Obligations.ResetMeetsTheInvariants := by
  have hw : Memory.wf State.reset.mem := by decide
  have hc : Config.wellFormed State.reset.cfg := ⟨defaultOpcodes_wellFormed, by decide⟩
  refine ⟨⟨invariant_reset, hw, hc⟩, fun image s h => ?_⟩
  obtain ⟨hl, rfl⟩ := loadImage_some h
  exact ⟨invariant_reset.with_mem _, Memory.wf_writeBytes hw 0 image (by omega), hc⟩

end Sys2Proof.Machine

/-! SUPPORT. Canonical memories as data: what they read determines them (10_state.md R19). -/

namespace Sys2Proof.Machine

/-- A canonical memory holds exactly the cells that read as their own byte and differ from an unlisted one. -/
theorem Memory.mem_iff_read {m : Memory} (h : Memory.wf m) (c : Host.Cell) :
    c ∈ m ↔ c.2 ≠ Memory.unlisted ∧ Memory.read m c.1 = c.2 := by
  induction m with
  | nil => simp only [List.not_mem_nil, Memory.read, false_iff, not_and]; exact fun hc => hc.symm
  | cons d m ih =>
    obtain ⟨hsorted, hcells⟩ := h
    rw [List.pairwise_cons] at hsorted
    have ih := ih ⟨hsorted.2, fun e he => hcells e (List.mem_cons_of_mem d he)⟩
    rw [List.mem_cons]
    by_cases hd : d.1 = c.1
    · have hm : c ∉ m := fun he => absurd (hsorted.1 c he) (by omega)
      have hd2 := (hcells d List.mem_cons_self).2
      simp only [Memory.read, if_pos hd, hm, or_false]
      exact ⟨by rintro rfl; exact ⟨hd2, rfl⟩, fun ⟨_, e⟩ => Prod.ext hd.symm e.symm⟩
    · have hne : c ≠ d := by rintro rfl; exact hd rfl
      simp only [Memory.read, if_neg hd, hne, false_or, ih]

/-- Of canonical memories that read the same within the address space, each holds the other's cells. -/
theorem Memory.subset_of_read_eq {m m' : Memory} (h : Memory.wf m) (h' : Memory.wf m')
    (hr : ∀ a < 65536, Memory.read m a = Memory.read m' a) : m ⊆ m' := by
  intro c hc
  obtain ⟨hne, hread⟩ := (Memory.mem_iff_read h c).1 hc
  exact (Memory.mem_iff_read h' c).2 ⟨hne, (hr c.1 (h.2 c hc).1).symm.trans hread⟩

/-- The cells of a canonical memory differ, because their addresses rise. -/
theorem Memory.nodup_of_wf {m : Memory} (h : Memory.wf m) : m.Nodup :=
  h.1.imp fun hlt heq => absurd (congrArg Prod.fst heq) (Nat.ne_of_lt hlt)

/-- Canonical memories that read the same within the address space are equal: they hold the same cells, in the same
order. -/
theorem Memory.eq_of_read_eq {m m' : Memory} (h : Memory.wf m) (h' : Memory.wf m')
    (hr : ∀ a < 65536, Memory.read m a = Memory.read m' a) : m = m' := by
  have hsub : m ⊆ m' := Memory.subset_of_read_eq h h' hr
  have hsub' : m' ⊆ m := Memory.subset_of_read_eq h' h fun a ha => (hr a ha).symm
  have hperm : m.Perm m' :=
    (List.perm_ext_iff_of_nodup (Memory.nodup_of_wf h) (Memory.nodup_of_wf h')).2 fun _ => ⟨@hsub _, @hsub' _⟩
  exact hperm.eq_of_pairwise (fun _ _ _ _ hab hba => absurd hab (lt_asymm hba)) h.1 h'.1

/-- Settles O56, by `Memory.eq_of_read_eq`: every address of the space is a word. -/
theorem canonicalMemoriesWithEqualBytesAreEqual : Obligations.CanonicalMemoriesWithEqualBytesAreEqual := by
  intro s t hs ht h
  refine Memory.eq_of_read_eq ht hs fun a ha => ?_
  have e := h (BitVec.ofNat 16 a)
  rwa [State.readByte, State.readByte, BitVec.toNat_ofNat, Nat.mod_eq_of_lt ha] at e

end Sys2Proof.Machine

/-! SUPPORT. Which instruction moves SP, the console and the bytes of memory (10_state.md R13, R20, R21, R23 (e)). -/

namespace Sys2Proof.Machine

/-- `i` is a store of this width whose EA in `s` is `ea`, in one of the three forms of its operands. -/
def StoresAt (i : Instr) (s : State) (ea : Word) : Width → Prop
  | .word => ∃ a c v, i = .stordr a ea ∨ (s.reg a = ea ∧ (i = .stormi a v ∨ i = .stormr a c))
  | .byte => ∃ a c v, i = .storbdr a ea ∨ (s.reg a = ea ∧ (i = .storbmi a v ∨ i = .storbmr a c))

/-- The next states of `i` from `s`, told apart by what they change beyond registers, PC, flags and run status, each
with the instructions that make that change. -/
inductive Moves (i : Instr) (s : State) : State → Prop where
  /-- SP, memory and the console are as they were. -/
  | none (t : State) (h : t = { s with x := t.x, pc := t.pc, flags := t.flags, run := t.run }) : Moves i s t
  /-- A store wrote memory, not at the TX port. -/
  | memory (w : Width) (ea v : Word) (hi : StoresAt i s ea w) (ht : ea ≠ ioTx) : Moves i s (memWrite ea w v s)
  /-- A store at the TX port emitted a byte. -/
  | emit (w : Width) (b : Byte) (hi : StoresAt i s ioTx w) : Moves i s (consoleWrite b s)
  /-- A load at the RX port consumed a byte. -/
  | take (d : Reg) (v : Word) (hi : LoadsRx i s) : Moves i s ({ s with inPos := s.inPos + 1 }.setReg d v)
  /-- PUSHR or CALL pushed a value. -/
  | push (v : Word) (t : State) (hi : i.mnemonic ∈ [.pushr, .call]) (hg : ramStart < s.sp) (hb : s.sp ≤ stackBase)
      (h : t = { pushed v s with pc := t.pc }) : Moves i s t
  /-- POPR or RET popped a value. -/
  | pop (t : State) (hi : i.mnemonic ∈ [.popr, .ret])
      (h : t = { s with x := t.x, pc := t.pc, sp := s.sp + 2 }) : Moves i s t

section
variable {i : Instr} {s t : State}

theorem moves_storeAt {ea v : Operand} {w : Width} (hn : storeAt ea w v s = .next t)
    (hi : StoresAt i s (ea.value s) w) : Moves i s t := by
  unfold storeAt at hn
  rcases dataStore_cases (ea.value s) w (v.value s) s with
    ⟨-, h⟩ | ⟨-, -, -, -, h⟩ | ⟨ha, -, h⟩ | ⟨-, -, h⟩ | ⟨-, ht, -, h⟩ <;> rw [h] at hn <;> cases hn
  · exact .none _ rfl
  · exact .none _ rfl
  · exact .emit w _ (ha ▸ hi)
  · exact .none _ rfl
  · exact .memory w _ _ hi ht

theorem moves_loadInto {d : Reg} {ea : Operand} {w : Width} (hn : loadInto d ea w s = .next t)
    (hi : ea.value s = ioRx → LoadsRx i s) : Moves i s t := by
  unfold loadInto at hn
  rcases dataLoad_cases (ea.value s) w s with
    ⟨b, ha, -, h⟩ | ⟨v, -, -, -, h⟩ | ⟨-, -, -, h⟩ | ⟨-, -, h⟩ | ⟨-, -, h⟩ <;> rw [h] at hn <;> cases hn
  · exact .take d _ (hi ha)
  · exact .none _ rfl
  · exact .none _ rfl
  · exact .none _ rfl

theorem moves_push {v : Word} {k : State → State} (hk : ∀ t, k t = { t with pc := (k t).pc })
    (hn : (push16 v s).finish s (fun _ t => k t) = .next t) (hi : i.mnemonic ∈ [.pushr, .call]) : Moves i s t := by
  rcases push16_cases v s with ⟨-, h⟩ | ⟨-, h⟩ | ⟨hg, hb, h⟩ <;> rw [h] at hn <;> cases hn
  · exact .none _ rfl
  · exact .none _ rfl
  · exact .push v _ hi hg hb (hk _)

theorem moves_pop {k : Word → State → State} (hk : ∀ v t, k v t = { t with x := (k v t).x, pc := (k v t).pc })
    (hn : (pop16 s).finish s k = .next t) (hi : i.mnemonic ∈ [.popr, .ret]) : Moves i s t := by
  rcases pop16_cases s with ⟨-, h⟩ | ⟨-, h⟩ <;> rw [h] at hn <;> cases hn
  · exact .none _ rfl
  · exact .pop _ hi (hk _ _)

theorem moves_divBy {d : Reg} {b : Word} (hn : divBy d b s = .next t) : Moves i s t := by
  unfold divBy at hn
  split at hn <;> cases hn
  · exact .none _ rfl
  · exact .none _ rfl

theorem moves_jumpIf {taken : Bool} {v : Word} (hn : jumpIf taken v s = .next t) : Moves i s t := by
  cases taken <;> cases hn
  · exact .none _ rfl
  · exact .none _ rfl

/-- Every next state of every instruction is one of these. -/
theorem exec_moves (hn : exec i s = .next t) : Moves i s t := by
  cases i with
  | stordr a v | storbdr a v => exact moves_storeAt (ea := .immediate v) hn ⟨a, a, v, .inl rfl⟩
  | stormi a v | storbmi a v => exact moves_storeAt (ea := .register a) hn ⟨a, a, v, .inr ⟨rfl, .inl rfl⟩⟩
  | stormr a c | storbmr a c => exact moves_storeAt (ea := .register a) hn ⟨a, c, 0, .inr ⟨rfl, .inr rfl⟩⟩
  | loadrd d v => exact moves_loadInto (ea := .immediate v) hn fun h => ⟨d, d, .inl (congrArg _ h)⟩
  | loadbrd d v => exact moves_loadInto (ea := .immediate v) hn fun h => ⟨d, d, .inr (.inl (congrArg _ h))⟩
  | loadrm d c => exact moves_loadInto (ea := .register c) hn fun h => ⟨d, c, .inr (.inr ⟨h, .inl rfl⟩)⟩
  | loadbrm d c => exact moves_loadInto (ea := .register c) hn fun h => ⟨d, c, .inr (.inr ⟨h, .inr rfl⟩)⟩
  | pushr a => exact moves_push (k := fun t => t) (fun _ => rfl) hn (by simp [Instr.mnemonic])
  | call v => exact moves_push (k := fun t => t.setPc v) (fun _ => rfl) hn (by simp [Instr.mnemonic])
  | popr a => exact moves_pop (k := fun v t => t.setReg a v) (fun _ _ => rfl) hn (by simp [Instr.mnemonic])
  | ret => exact moves_pop (k := fun v t => t.setPc v) (fun _ _ => rfl) hn (by simp [Instr.mnemonic])
  | divrr | divri => exact moves_divBy hn
  | jmp | jmz | jnz | jmc | jms => exact moves_jumpIf hn
  | nop | hlt | cmprr | cmpri | movrr | movri | addrr | addri | subrr | subri | mulrr | mulri | incr | decr
  | andrr | andri | orrr | orri | xorrr | xorri | not | shr | shl => cases hn; exact .none _ rfl

end

/-- Settles O49, by the cases of `Moves`. -/
theorem onlyStackInstructionsMoveSp : Obligations.OnlyStackInstructionsMoveSp := by
  intro i s t hn
  cases exec_moves hn with
  | none _ h => rw [h]; exact .inl rfl
  | memory w ea v => rw [memWrite_eq]; exact .inl rfl
  | emit w b => exact .inl rfl
  | take d v => exact .inl rfl
  | push v _ hi _ _ h => rw [h]; exact .inr (.inl ⟨rfl, hi⟩)
  | pop _ hi h => rw [h]; exact .inr (.inr ⟨rfl, hi⟩)

/-- A store whose EA is the TX port, in any of its six forms. -/
theorem StoresAt.tx {i : Instr} {s : State} {w : Width} (h : StoresAt i s ioTx w) :
    ∃ a c v, i = .stordr a 0xFF01 ∨ i = .storbdr a 0xFF01 ∨
      (s.reg a = 0xFF01 ∧ (i = .stormi a v ∨ i = .stormr a c ∨ i = .storbmi a v ∨ i = .storbmr a c)) := by
  cases w with
  | word => obtain ⟨a, c, v, hi | ⟨ha, hi | hi⟩⟩ := h <;> exact ⟨a, c, v, by tauto⟩
  | byte => obtain ⟨a, c, v, hi | ⟨ha, hi | hi⟩⟩ := h <;> exact ⟨a, c, v, by tauto⟩

/-- Settles O50, by the cases of `Moves`: only a store at TX emits, and only a load of RX consumes. -/
theorem consoleMovesOnlyAtItsPorts : Obligations.ConsoleMovesOnlyAtItsPorts := by
  intro i s t hn
  cases exec_moves hn with
  | none _ h => rw [h]; exact ⟨.inl rfl, .inl rfl⟩
  | memory w ea v => rw [memWrite_eq]; exact ⟨.inl rfl, .inl rfl⟩
  | emit w b hi =>
    obtain ⟨a, c, v, hi⟩ := hi.tx
    exact ⟨.inr ⟨b, a, c, v, rfl, hi⟩, .inl rfl⟩
  | take d v hi => exact ⟨.inl rfl, .inr ⟨rfl, hi⟩⟩
  | push v _ _ _ _ h => rw [h]; exact ⟨.inl rfl, .inl rfl⟩
  | pop _ _ h => rw [h]; exact ⟨.inl rfl, .inl rfl⟩

/-- Settles O51, by the cases of `Moves`: a push stays at or below the stack base, and a store that is not at TX reaches
the port's byte only as its second one. -/
theorem txByteChangesOnlyThroughRxStore : Obligations.TxByteChangesOnlyThroughRxStore := by
  intro i s t hn hne
  cases exec_moves hn with
  | none _ h => exact absurd (by rw [h]; rfl) hne
  | memory w ea v hi ht =>
    by_cases hw : w = .word ∧ ea = 0xFF00
    · obtain ⟨rfl, rfl⟩ := hw; exact hi
    · have second : w = .word → (0xFF01 : Word) ≠ ea + 1 := fun hword heq =>
        hw ⟨hword, eq_sub_of_add_eq heq.symm⟩
      exact absurd (readByte_memWrite_other ea w v s (Ne.symm ht) second) hne
  | emit w b => exact absurd rfl hne
  | take d v => exact absurd rfl hne
  | push v _ _ hg hb h =>
    have hg : 0x4000 < s.sp.toNat := hg
    have hb : s.sp.toNat ≤ 0xDEFF := hb
    have e : t.readByte 0xFF01 = (pushed v s).readByte 0xFF01 := by rw [h]; rfl
    rw [e, readByte_pushed, if_neg (by bv_omega), if_neg (by bv_omega)] at hne
    exact absurd rfl hne
  | pop _ _ h => exact absurd (by rw [h]; rfl) hne

end Sys2Proof.Machine

/-! SUPPORT. The memory system (20_memory.md). First which access an instruction makes, what the access answers, and
how the instruction then ends: in the fault that was raised, in a console byte, or in a register that was loaded. The
statements about the ports, the stack and memory put these together. -/

namespace Sys2Proof.Machine

/-- Settles O52, by the instructions' rule `exec_keeps_program_space`. -/
theorem programSpaceIsNeverWritten : Obligations.ProgramSpaceIsNeverWritten := fun s _ h a ha =>
  step_keeps (P := fun t => t.readByte a = s.readByte a) (fun _ _ h => h) (fun _ _ h => h)
    (fun hx hs => (exec_keeps_program_space hx ha).trans hs) h rfl

/-! ### The access of an instruction (42_data_movement.md R112 to R124, 41_control_flow.md R99, R100) -/

section
variable (a b : Reg) (v : Word) (s : State)

theorem exec_stordr : exec (.stordr a v) s = storeAt (.immediate v) .word (.register a) s := rfl
theorem exec_stormi : exec (.stormi a v) s = storeAt (.register a) .word (.immediate v) s := rfl
theorem exec_stormr : exec (.stormr a b) s = storeAt (.register a) .word (.register b) s := rfl
theorem exec_storbdr : exec (.storbdr a v) s = storeAt (.immediate v) .byte (.register a) s := rfl
theorem exec_storbmi : exec (.storbmi a v) s = storeAt (.register a) .byte (.immediate v) s := rfl
theorem exec_storbmr : exec (.storbmr a b) s = storeAt (.register a) .byte (.register b) s := rfl
theorem exec_loadrd : exec (.loadrd a v) s = loadInto a (.immediate v) .word s := rfl
theorem exec_loadrm : exec (.loadrm a b) s = loadInto a (.register b) .word s := rfl
theorem exec_loadbrd : exec (.loadbrd a v) s = loadInto a (.immediate v) .byte s := rfl
theorem exec_loadbrm : exec (.loadbrm a b) s = loadInto a (.register b) .byte s := rfl
theorem exec_pushr : exec (.pushr a) s = (push16 (s.reg a) s).finish s (fun _ t => t) := rfl
theorem exec_popr : exec (.popr a) s = (pop16 s).finish s (fun w t => t.setReg a w) := rfl
theorem exec_call : exec (.call v) s = (push16 s.pc s).finish s (fun _ t => t.setPc v) := rfl
theorem exec_ret : exec .ret s = (pop16 s).finish s (fun w t => t.setPc w) := rfl

end

/-! ### What an access answers at the ports and outside its bounds -/

/-- A 16-bit store at TX of a value that does not fit in a byte, where TX_WIDE is fault (R45). -/
theorem dataStore_tx_wide {a v : Word} {s : State} (ha : a = 0xFF01) (hv : 0xFF < v.toNat) (hf : s.cfg.txWide = .fault) :
    dataStore a .word v s = .raised (.io 0xFF01 v) := by
  subst ha
  unfold dataStore
  rw [if_neg (by decide), if_pos (by decide), if_pos ⟨rfl, hv, hf⟩]

/-- A 16-bit store at the last address (R41). -/
theorem dataStore_last {a : Word} (ha : a = 0xFFFF) (v : Word) (s : State) :
    dataStore a .word v s = .raised (.address 0xFFFF) := by
  subst ha
  unfold dataStore
  rw [if_neg (by decide), if_neg (by decide), if_pos (by decide)]

/-- A 16-bit load at the last address (R41). -/
theorem dataLoad_last {a : Word} (ha : a = 0xFFFF) (s : State) : dataLoad a .word s = .raised (.address 0xFFFF) := by
  subst ha
  unfold dataLoad
  rw [if_neg (by decide), if_pos (by decide)]

/-- A load at RX with the input exhausted waits where RX_EOI is block (R46). -/
theorem dataLoad_rx_blocked (w : Width) {s : State} (h : s.consoleIn.length ≤ s.inPos) (hr : s.cfg.rxEoi = .block) :
    dataLoad 0xFF00 w s = .blocked := by
  unfold dataLoad consoleRead
  rw [if_pos (by decide), List.getElem?_eq_none h, hr]

/-- A load at RX with the input exhausted gives the value of RX_EOI where there is one (R46). -/
theorem dataLoad_rx_value (w : Width) {s : State} {v : Word} (h : s.consoleIn.length ≤ s.inPos)
    (hr : s.cfg.rxEoi = .value v) : dataLoad 0xFF00 w s = .done v s := by
  unfold dataLoad consoleRead
  rw [if_pos (by decide), List.getElem?_eq_none h, hr]

/-- A push with SP at or below the RAM boundary (R50, D9). -/
theorem push16_overflow (v : Word) {s : State} (h : s.sp.toNat ≤ 0x4000) :
    push16 v s = .raised (.stack .overflow s.sp) := by
  rcases push16_cases v s with ⟨hc, -⟩ | ⟨-, hc⟩ | ⟨hc, -, -⟩
  · rw [stackBase_lt_iff] at hc; omega
  · exact hc
  · exact absurd h (Nat.not_le.2 hc)

/-- A push with SP above the stack base (R50, D8). -/
theorem push16_guard (v : Word) {s : State} (h : 0xDEFF < s.sp.toNat) : push16 v s = .raised (.stack .guard s.sp) := by
  rcases push16_cases v s with ⟨-, hc⟩ | ⟨hc, -⟩ | ⟨-, hc, -⟩
  · exact hc
  · rw [le_ramStart_iff] at hc; omega
  · exact absurd h (Nat.not_lt.2 hc)

/-- A pop with SP at or above the stack base (R51, D8). -/
theorem pop16_underflow {s : State} (h : 0xDEFF ≤ s.sp.toNat) : pop16 s = .raised (.stack .underflow s.sp) := by
  rcases pop16_cases s with ⟨-, hc⟩ | ⟨hc, -⟩
  · exact hc
  · exact absurd h (Nat.not_le.2 hc)

/-! ### How an instruction ends after its access -/

section
variable {i : Instr} {s : State}

/-- An instruction whose access raised a fault raises it and does nothing else (60_exceptions.md R184). -/
theorem faults_of_raised {α : Type} {acc : Access α} {k : α → State → State} {r : FaultReason}
    (hi : exec i s = acc.finish s k) (h : acc = .raised r) : Faults i s r :=
  ⟨raise r s, by rw [hi, h, finish_raised], raise_run s r, frame_raise s rfl r⟩

theorem faults_of_storeAt {ea v : Operand} {w : Width} {r : FaultReason} (hi : exec i s = storeAt ea w v s)
    (h : dataStore (ea.value s) w (v.value s) s = .raised r) : Faults i s r := faults_of_raised hi h

theorem faults_of_loadInto {d : Reg} {ea : Operand} {w : Width} {r : FaultReason} (hi : exec i s = loadInto d ea w s)
    (h : dataLoad (ea.value s) w s = .raised r) : Faults i s r := faults_of_raised hi h

/-- A store that TX takes emits its value's low byte (R45). -/
theorem emits_of_storeAt {ea v : Operand} {w : Width} (hi : exec i s = storeAt ea w v s) (ha : ea.value s = 0xFF01)
    (hv : w = .word → (v.value s).toNat ≤ 0xFF ∨ s.cfg.txWide = .truncate) : Emits i s (v.value s) :=
  ⟨consoleWrite (lowByte (v.value s)) s, by rw [hi, storeAt, ha, dataStore_console hv, finish_done],
    consoleWrite_out s _, frame_consoleWrite s rfl _⟩

/-- A completed load that left the state alone sets its destination alone (42_data_movement.md R125). -/
theorem sets_of_loaded {acc : Access Word} {d : Reg} {v : Word} (hi : exec i s = acc.finish s (fun v t => t.setReg d v))
    (h : acc = .done v s) : Sets i s d v.toNat :=
  ⟨s.setReg d v, by rw [hi, h, finish_done], by rw [reg_setReg_same], frame_setReg s List.mem_cons_self v⟩

/-- A load away from RX and the last address sets its destination to what memory holds there (R42). -/
theorem sets_of_loadInto {d : Reg} {ea : Operand} {w : Width} (hi : exec i s = loadInto d ea w s)
    (hr : ea.value s ≠ 0xFF00) (hl : w = .word → ea.value s ≠ 0xFFFF) : Sets i s d (memRead (ea.value s) w s).toNat :=
  sets_of_loaded hi (dataLoad_memory s hr hl)

/-- `i` is a load of RX into `d`, of either width and either address form. -/
def LoadsRxInto (i : Instr) (s : State) (d : Reg) : Prop :=
  ∃ c : Reg, i = .loadrd d 0xFF00 ∨ i = .loadbrd d 0xFF00 ∨ (s.reg c = 0xFF00 ∧ (i = .loadrm d c ∨ i = .loadbrm d c))

/-- Every load of RX is one access of the port, whose width does not matter (R44). -/
theorem LoadsRxInto.exec_eq {d : Reg} (h : LoadsRxInto i s d) :
    ∃ w, exec i s = (dataLoad 0xFF00 w s).finish s (fun v t => t.setReg d v) := by
  obtain ⟨c, rfl | rfl | ⟨hc, rfl | rfl⟩⟩ := h
  · exact ⟨.word, exec_loadrd _ _ s⟩
  · exact ⟨.byte, exec_loadbrd _ _ s⟩
  · exact ⟨.word, by rw [exec_loadrm, loadInto, value_register, hc]⟩
  · exact ⟨.byte, by rw [exec_loadbrm, loadInto, value_register, hc]⟩

/-- A load of RX with input left consumes the next byte into its destination (R44, R46). -/
theorem LoadsRxInto.readsConsole {d : Reg} {b : Byte} (h : LoadsRxInto i s d) (hb : s.consoleIn[s.inPos]? = some b) :
    ReadsConsole i s d b := by
  obtain ⟨w, hx⟩ := h.exec_eq
  rw [dataLoad_console w hb, finish_done] at hx
  exact ⟨_, hx, by rw [reg_setReg_same, toNat_zext16], rfl,
    (frame_inPos s rfl _).trans (frame_setReg _ List.mem_cons_self _)⟩

end

/-! ### The console ports -/

/-- Settles O23, form by form: each is a `storeAt` that TX takes. -/
theorem storesToTxEmitOneByte : Obligations.StoresToTxEmitOneByte := by
  intro s a b v
  have byteFits {p : Prop} : Width.byte = .word → p := nofun
  exact ⟨fun hv => emits_of_storeAt (exec_stordr a _ s) rfl fun _ => hv,
    fun ha hv => emits_of_storeAt (exec_stormi a v s) ha fun _ => hv,
    fun ha hv => emits_of_storeAt (exec_stormr a b s) ha fun _ => hv,
    emits_of_storeAt (exec_storbdr a _ s) rfl byteFits,
    fun ha => emits_of_storeAt (exec_storbmi a v s) ha byteFits,
    fun ha => emits_of_storeAt (exec_storbmr a b s) ha byteFits⟩

/-- Settles O24: the access of each 16-bit store raises IoFault. -/
theorem wideStoreToTxRaisesIoFault : Obligations.WideStoreToTxRaisesIoFault := fun s a b v hf =>
  ⟨fun hv => faults_of_storeAt (exec_stordr a _ s) (dataStore_tx_wide rfl hv hf),
    fun ha hv => faults_of_storeAt (exec_stormi a v s) (dataStore_tx_wide ha hv hf),
    fun ha hv => faults_of_storeAt (exec_stormr a b s) (dataStore_tx_wide ha hv hf)⟩

/-- Settles O29: the four loads are all `LoadsRxInto`. -/
theorem loadsFromRxTakeTheNextByte : Obligations.LoadsFromRxTakeTheNextByte := by
  intro s a b c hc
  have reads {i : Instr} (h : LoadsRxInto i s a) : ReadsConsole i s a c := h.readsConsole hc
  exact ⟨reads ⟨b, .inl rfl⟩, reads ⟨b, .inr (.inl rfl)⟩,
    fun hb => ⟨reads ⟨b, .inr (.inr ⟨hb, .inl rfl⟩)⟩, reads ⟨b, .inr (.inr ⟨hb, .inr rfl⟩)⟩⟩⟩

/-- Settles O30, by the two kinds of RX_EOI. -/
theorem loadsFromExhaustedRxFollowRxEoi : Obligations.LoadsFromExhaustedRxFollowRxEoi := by
  intro s a b i he hi
  obtain ⟨w, hx⟩ := LoadsRxInto.exec_eq ⟨b, hi⟩
  refine ⟨fun hblock => ?_, fun v hvalue => sets_of_loaded hx (dataLoad_rx_value w he hvalue)⟩
  rw [hx, dataLoad_rx_blocked w he hblock, finish_blocked]

/-- Settles O26: the access of each 16-bit store and load raises AddressFault. -/
theorem wordAccessAtLastAddressRaisesAddressFault : Obligations.WordAccessAtLastAddressRaisesAddressFault :=
  fun s a b v =>
    ⟨faults_of_storeAt (exec_stordr a _ s) (dataStore_last rfl _ s),
      faults_of_loadInto (exec_loadrd a _ s) (dataLoad_last rfl s),
      fun ha => ⟨faults_of_storeAt (exec_stormi a v s) (dataStore_last ha _ s),
        faults_of_storeAt (exec_stormr a b s) (dataStore_last ha _ s)⟩,
      fun hb => faults_of_loadInto (exec_loadrm a b s) (dataLoad_last hb s)⟩

/-! ### The stack -/

/-- Settles O34: the push of PUSHR and of CALL raises StackFault. -/
theorem pushOutsideTheStackRaisesStackFault : Obligations.PushOutsideTheStackRaisesStackFault := fun s a v =>
  ⟨fun h => ⟨faults_of_raised (exec_pushr a s) (push16_overflow _ h),
      faults_of_raised (exec_call v s) (push16_overflow _ h)⟩,
    fun h => ⟨faults_of_raised (exec_pushr a s) (push16_guard _ h), faults_of_raised (exec_call v s) (push16_guard _ h)⟩⟩

/-- Settles O35: the pop of POPR and of RET raises StackFault. -/
theorem popFromTheEmptyStackRaisesStackFault : Obligations.PopFromTheEmptyStackRaisesStackFault := fun s a h =>
  ⟨faults_of_raised (exec_popr a s) (pop16_underflow h), faults_of_raised (exec_ret s) (pop16_underflow h)⟩

/-- A PUSHR within the stack's bounds completes (R50, R117). -/
theorem exec_pushr_done (a : Reg) {s : State} (h : 0x4000 < s.sp.toNat) (h' : s.sp.toNat ≤ 0xDEFF) :
    exec (.pushr a) s = .next (pushed (s.reg a) s) := by
  rw [exec_pushr, push16_done _ h h', finish_done]

/-- A 16-bit load one below the SP of a push joins the pushed bytes the wrong way round: the push puts the high byte
below the low one, memory is little-endian (90_conflicts.md C1). -/
theorem memRead_pushed (v : Word) (s : State) :
    memRead (s.sp - 1) .word (pushed v s) = joinBytes (lowByte v) (highByte v) := by
  rw [memRead_word, BitVec.sub_add_cancel, readByte_pushed, readByte_pushed, if_neg (sp_ne_sub_one s.sp), if_pos rfl,
    if_pos rfl]

/-- Settles O38: within the stack's bounds the load's address is neither RX nor the last one, so it reads what the push
left there (`memRead_pushed`). -/
theorem pushedValueLoadsByteSwapped : Obligations.PushedValueLoadsByteSwapped := by
  intro s a d hlo hhi
  obtain ⟨u, hu, hd, -⟩ : Sets (.loadrd d (s.sp - 1)) (pushed (s.reg a) s) d _ :=
    sets_of_loadInto (exec_loadrd d _ _) (show s.sp - 1 ≠ 0xFF00 by bv_omega)
      fun _ => show s.sp - 1 ≠ 0xFFFF by bv_omega
  rw [value_immediate, memRead_pushed] at hd
  have hd := BitVec.eq_of_toNat_eq hd
  exact ⟨_, u, exec_pushr_done a hlo hhi, hu, by rw [hd, lowByte_joinBytes], by rw [hd, highByte_joinBytes]⟩

/-! ### A load after a store -/

/-- A STORDR to ordinary memory completes (R112). -/
theorem exec_stordr_memory (a : Reg) {v : Word} (s : State) (hg : 0x4000 ≤ v.toNat) (ht : v ≠ 0xFF01) (hl : v ≠ 0xFFFF) :
    exec (.stordr a v) s = .next (memWrite v .word (s.reg a) s) := by
  rw [exec_stordr, storeAt, value_immediate, value_register, dataStore_memory _ s hg ht fun _ => hl, finish_done]

/-- The byte at the address of a 16-bit write is the low one (R31). -/
theorem readByte_memWrite_low (a v : Word) (s : State) : (memWrite a .word v s).readByte a = lowByte v := by
  rw [memWrite_word, readByte_writeByte_other _ (word_ne_add_one a), readByte_writeByte_same]

/-- The byte after it is the high one (R31). -/
theorem readByte_memWrite_high (a v : Word) (s : State) : (memWrite a .word v s).readByte (a + 1) = highByte v := by
  rw [memWrite_word, readByte_writeByte_same]

/-- Settles O39: the loads read the two bytes of the write, joined or one by one. -/
theorem storeThenLoadGivesTheValue : Obligations.StoreThenLoadGivesTheValue := by
  intro s a d v hg hrx htx hl
  have hlow := readByte_memWrite_low v (s.reg a) s
  have hhigh := readByte_memWrite_high v (s.reg a) s
  refine ⟨memWrite v .word (s.reg a) s, exec_stordr_memory a s hg htx hl, ?_, ?_, fun hrx' => ?_⟩
  · have h := sets_of_loadInto (exec_loadrd d v (memWrite v .word (s.reg a) s)) hrx fun _ => hl
    rwa [value_immediate, memRead_word, hlow, hhigh, joinBytes_high_low] at h
  · have h := sets_of_loadInto (exec_loadbrd d v (memWrite v .word (s.reg a) s)) hrx nofun
    rwa [value_immediate, memRead_byte, hlow, toNat_zext16, toNat_lowByte] at h
  · have h := sets_of_loadInto (exec_loadbrd d (v + 1) (memWrite v .word (s.reg a) s)) hrx' nofun
    rwa [value_immediate, memRead_byte, hhigh, toNat_zext16, toNat_highByte] at h

end Sys2Proof.Machine

/-! SUPPORT. The instruction encoding (30_encoding.md): what encoding and decoding give back of each other, the rows of
the opcode table by their formats, and the step that runs what was decoded. -/

namespace Sys2Proof.Machine

/-! ### Encoding and decoding undo each other (R66) -/

/-- Settles O1: the table finds the mnemonic by its byte under an injective OPC, and the operand bytes give the fields
back. -/
theorem decodeOfEncodeIsTheInstruction : Obligations.DecodeOfEncodeIsTheInstruction := by
  intro opc hopc i rest
  have h := decode_of_mnemonicOf (OpcodeMap.mnemonicOf_byteOf hopc i.mnemonic) (decodeFields_encodeFields i rest)
  rwa [instrOf_mnemonic_fields] at h

/-- The register byte that the encoder writes where the low nibble is ignored (R62, R65). -/
theorem registerByte_highNibble_zero (b : Byte) : registerByte (highNibble b) 0 = b &&& 0xF0 := by
  have hshift : b &&& (0xF0 : Byte) = b >>> 4 <<< 4 := (BitVec.shiftLeft_ushiftRight (x := b) (n := 4)).symm
  have hb := b.isLt
  apply BitVec.eq_of_toNat_eq
  rw [hshift]
  simp only [registerByte, highNibble, BitVec.toNat_ofNat, BitVec.toNat_shiftLeft, BitVec.toNat_ushiftRight,
    Nat.shiftRight_eq_div_pow, Nat.shiftLeft_eq, Fin.val_zero]
  omega

/-- The operand bytes that were decoded, encoded again. -/
theorem encodeFields_of_decodeFields {g : Format} {bs rest : List Byte} {f : Fields}
    (h : decodeFields g bs = some (f, rest)) :
    ∃ operands, bs = operands ++ rest ∧ operands.length = g.operandBytes ∧
      encodeFields g f = clearIgnored g operands := by
  unfold decodeFields at h
  split at h <;> cases h
  · exact ⟨[], rfl, rfl, rfl⟩
  · rename_i b1
    exact ⟨[b1], rfl, rfl, by simp [encodeFields, clearIgnored, registerByte_highNibble_zero]⟩
  · rename_i b1
    exact ⟨[b1], rfl, rfl, by simp [encodeFields, clearIgnored]⟩
  · rename_i b1 b2
    exact ⟨[b1, b2], rfl, rfl, by simp [encodeFields, clearIgnored]⟩
  · rename_i b1 b2 b3
    exact ⟨[b1, b2, b3], rfl, rfl, by simp [encodeFields, clearIgnored, registerByte_highNibble_zero]⟩

/-- An instruction made from fields is encoded with these fields: its format uses no other. -/
theorem encodeFields_instrOf (m : Mnemonic) (f : Fields) :
    encodeFields m.format (instrOf m f).fields = encodeFields m.format f := by cases m <;> rfl

/-- Settles O2: the opcode byte is the one the table was asked for, and the operand bytes are encoded again format by
format. -/
theorem encodeOfDecodeIsTheBytes : Obligations.EncodeOfDecodeIsTheBytes := by
  intro opc bytes rest i h
  obtain ⟨op, bs, m, f, rfl, hm, hf, rfl⟩ := decode_ok h
  obtain ⟨operands, rfl, hlen, henc⟩ := encodeFields_of_decodeFields hf
  rw [mnemonic_instrOf]
  exact ⟨op, operands, rfl, hlen, by
    rw [encode, mnemonic_instrOf, encodeFields_instrOf, OpcodeMap.byteOf_of_mnemonicOf hm, henc]⟩

/-! ### The rows of the opcode table (R60 to R68) -/

theorem byteOf_defaultOpcodes (m : Mnemonic) : defaultOpcodes.byteOf m = defaultOpcode m := by cases m <;> rfl

section
variable (m : Mnemonic)

/-- The default opcode byte of a mnemonic and operand bytes of its format are its instruction with their fields. -/
theorem encodes_of_decodeFields {operands : List Byte} {f : Fields} (h : decodeFields m.format operands = some (f, [])) :
    Encodes (defaultOpcode m :: operands) (instrOf m f) := by
  intro rest
  have hm := OpcodeMap.mnemonicOf_byteOf defaultOpcodes_wellFormed m
  rw [byteOf_defaultOpcodes] at hm
  exact decode_of_mnemonicOf hm (decodeFields_append h rest)

theorem encodes_none (h : m.format = .none) : Encodes [defaultOpcode m] (instrOf m { }) :=
  encodes_of_decodeFields m (by rw [h]; rfl)

theorem encodes_reg (h : m.format = .reg) (a n : Reg) :
    Encodes [defaultOpcode m, registerByte a n] (instrOf m { reg1 := a }) :=
  encodes_of_decodeFields m (by simp [h, decodeFields])

theorem encodes_regReg (h : m.format = .regReg) (a b : Reg) :
    Encodes [defaultOpcode m, registerByte a b] (instrOf m { reg1 := a, reg2 := b }) :=
  encodes_of_decodeFields m (by simp [h, decodeFields])

theorem encodes_imm (h : m.format = .imm) (v : Word) :
    Encodes [defaultOpcode m, lowByte v, highByte v] (instrOf m { imm := v }) :=
  encodes_of_decodeFields m (by simp [h, decodeFields])

theorem encodes_regImm (h : m.format = .regImm) (a n : Reg) (v : Word) :
    Encodes [defaultOpcode m, registerByte a n, lowByte v, highByte v] (instrOf m { reg1 := a, imm := v }) :=
  encodes_of_decodeFields m (by simp [h, decodeFields])

end

/-- Settles O4, row by row of the opcode table, each by the rule of its format. -/
theorem opcodeTableRowsDecode : Obligations.OpcodeTableRowsDecode := fun a b n v =>
  ⟨
    -- control flow
    ⟨encodes_none .nop rfl, encodes_none .hlt rfl, encodes_regReg .cmprr rfl a b,
      encodes_regImm .cmpri rfl a n v, encodes_imm .jmp rfl v, encodes_imm .jmz rfl v, encodes_imm .jnz rfl v,
      encodes_imm .jmc rfl v, encodes_imm .jms rfl v, encodes_imm .call rfl v, encodes_none .ret rfl⟩,
    -- data movement
    ⟨encodes_regReg .movrr rfl a b, encodes_regImm .movri rfl a n v, encodes_regImm .stordr rfl a n v,
      encodes_regImm .stormi rfl a n v, encodes_regReg .stormr rfl a b, encodes_regImm .loadrd rfl a n v,
      encodes_regReg .loadrm rfl a b, encodes_reg .pushr rfl a n, encodes_reg .popr rfl a n,
      encodes_regImm .storbdr rfl a n v, encodes_regImm .storbmi rfl a n v, encodes_regReg .storbmr rfl a b,
      encodes_regImm .loadbrd rfl a n v, encodes_regReg .loadbrm rfl a b⟩,
    -- arithmetic
    ⟨encodes_regReg .addrr rfl a b, encodes_regImm .addri rfl a n v, encodes_regReg .subrr rfl a b,
      encodes_regImm .subri rfl a n v, encodes_regReg .mulrr rfl a b, encodes_regImm .mulri rfl a n v,
      encodes_regReg .divrr rfl a b, encodes_regImm .divri rfl a n v, encodes_reg .incr rfl a n,
      encodes_reg .decr rfl a n⟩,
    -- bitwise
    ⟨encodes_regReg .andrr rfl a b, encodes_regImm .andri rfl a n v, encodes_regReg .orrr rfl a b,
      encodes_regImm .orri rfl a n v, encodes_regReg .xorrr rfl a b, encodes_regImm .xorri rfl a n v,
      encodes_reg .not rfl a n, encodes_reg .shr rfl a n, encodes_reg .shl rfl a n⟩⟩

/-- Settles O3: the legal words are rows of the opcode table with their operands, and the table has no entry for the
last two bytes. -/
theorem writtenWordsDecode : Obligations.WrittenWordsDecode :=
  ⟨encodes_none .nop rfl [], encodes_reg .pushr rfl 10 0 [], encodes_reg .pushr rfl 10 15 [],
    encodes_regReg .movrr rfl 2 15 [], encodes_imm .jmp rfl 0x1234 [], encodes_regImm .movri rfl 7 0 0xABCD [],
    encodes_regImm .movri rfl 7 15 0xABCD [], encodes_regReg .addrr rfl 0 1 [], encodes_regImm .xorri rfl 4 0 0xFFFF [],
    rfl, rfl⟩

/-! ### The step that runs what was decoded (40_run_loop.md R80, R84) -/

/-- Settles O5, by the step's rule `step_of_bytesAtPc`; the two bounds checks agree by definition. -/
theorem stepRunsTheDecodedInstruction : Obligations.StepRunsTheDecodedInstruction := by
  intro s bytes i hr hp hb hd
  rw [step_of_bytesAtPc hr hp hb hd, State.setPc]
  cases exec i { s with pc := s.pc + BitVec.ofNat 16 bytes.length } <;> rfl

end Sys2Proof.Machine

/-! SUPPORT. The run loop (40_run_loop.md): from which states a step exists, and what it runs. -/

namespace Sys2Proof.Machine

/-- Settles O7: the cases of a step leave only the one that runs an instruction, and the instruction's mnemonic is what
the table finds (R82). -/
theorem legalOpcodeAlwaysDecodes : Obligations.LegalOpcodeAlwaysDecodes := by
  intro s m hr hp hm
  obtain ⟨hout, -⟩ | ⟨-, hnone, -⟩ | ⟨i, bytes, -, hi, hb, hlen, hd, -⟩ := step_cases hr
  · omega
  · rw [hm] at hnone; cases hnone
  · obtain rfl : m = i.mnemonic := Option.some.inj (hm.symm.trans hi)
    have hstep := step_of_bytesAtPc hr hp hb hd
    rw [hlen] at hstep
    exact ⟨i, bytes, rfl, hlen, hlen.trans_le i.length_le_four, hb, hd, hstep⟩

/-- Settles O10, by the cases of a step: the faults of the run loop are next states, no instruction is refused, and one
that stops waits for the console (`exec_fault`). -/
theorem runningStepCompletesUnlessConsoleBlocks : Obligations.RunningStepCompletesUnlessConsoleBlocks := by
  intro s hr
  obtain ⟨-, e⟩ | ⟨-, -, e⟩ | ⟨i, bytes, hp, -, hb, -, hd, e⟩ := step_cases hr
  · exact .inl ⟨_, e⟩
  · exact .inl ⟨_, e⟩
  · cases hx : exec i (advance i s) with
    | next t => exact .inl ⟨boundsCheck t, by rw [e, hx]; rfl⟩
    | fault r =>
      obtain ⟨rfl, hrx, hin, hblock⟩ := exec_fault hx
      exact .inr ⟨by rw [e, hx]; rfl, hblock, List.getElem?_eq_none_iff.1 hin, hp, i, bytes, hb, hd, hrx⟩
    | refused r => exact absurd hx (exec_ne_refused i _ r)

/-- Settles O8, by the step's rule `step_of_fetch_outside` and the frame of a fault (R81). -/
theorem pcOutsideProgramSpaceFaultsBeforeFetch : Obligations.PcOutsideProgramSpaceFaultsBeforeFetch :=
  fun s hr hp => ⟨raise (.bounds s.pc) s, step_of_fetch_outside hr hp, rfl, frame_raise s rfl _⟩

/-- A state that is not RUNNING has no step: it answers a fault (R85). -/
theorem step_of_not_running {s : State} (hr : s.run ≠ .running) : ∃ r, step s = .fault r := by
  unfold step
  cases h : s.run with
  | running => exact absurd h hr
  | halted => exact ⟨_, rfl⟩
  | faulted r => exact ⟨_, rfl⟩

/-- Settles O9, by `step_of_not_running`; delivering input writes the console input only. -/
theorem terminalStatusHasNoStep : Obligations.TerminalStatusHasNoStep := by
  intro s hr
  obtain ⟨r, e⟩ := step_of_not_running hr
  rw [e]
  exact ⟨nofun, nofun, fun _ => rfl⟩

end Sys2Proof.Machine

/-! SUPPORT. Control flow (41_control_flow.md). First what the bounds check and a step make of an instruction that
completes; then what each control-flow instruction does, and from both the statements about them. -/

namespace Sys2Proof.Machine

/-! ### The step of an instruction that completes (40_run_loop.md R80, R84) -/

section
variable {s u : State} {bytes : List Byte} {i : Instr}

/-- The step where the bytes about to be fetched are those of `i`. -/
theorem step_of_fetches (hf : Fetches s bytes) (he : Encodes bytes i) :
    step s = afterInstruction (exec i (s.setPc (s.pc + BitVec.ofNat 16 bytes.length))) := by
  obtain ⟨hr, hp, hopc, hb⟩ := hf
  have hd := he []
  rw [List.append_nil, ← hopc] at hd
  exact step_of_bytesAtPc hr hp hb hd

/-- A step of an instruction that leaves the run status alone: the bounds check looks at the PC it ends with, and
nothing has changed but PC, the run status and what the instruction wrote. -/
theorem step_of_completes {w : Writes} (hf : Fetches s bytes) (he : Encodes bytes i)
    (hx : exec i (s.setPc (s.pc + BitVec.ofNat 16 bytes.length)) = .next u)
    (hu : Frame w (s.setPc (s.pc + BitVec.ofNat 16 bytes.length)) u) (hw : w.run = false) :
    step s = .next (boundsCheck u) ∧ (boundsCheck u).run = statusAt u.pc ∧
      Frame { w with pc := true, run := true } s (boundsCheck u) := by
  have hrun : u.run = .running := by
    obtain ⟨-, -, -, -, -, hrun, -⟩ := hu
    rw [hrun hw, setPc_run]
    exact hf.1
  have hu' : Frame { w with pc := true, run := true } (s.setPc (s.pc + BitVec.ofNat 16 bytes.length)) u :=
    hu.weaken (fun _ h => h) (fun _ h => h) (fun _ => rfl) id id (fun _ => rfl) id id
  exact ⟨by rw [step_of_fetches hf he, hx]; rfl, boundsCheck_run hrun,
    ((frame_setPc s rfl _).trans hu').trans (frame_boundsCheck u rfl)⟩

/-- The bounds check leaves a core alone that does not run (R87). -/
theorem boundsCheck_of_not_running (h : u.run ≠ .running) : boundsCheck u = u := if_neg fun hc => h hc.1

end

/-! ### NOP and HLT (R90, R91) -/

theorem exec_nop (s : State) : exec .nop s = .next s := rfl

theorem exec_hlt (s : State) : exec .hlt s = .next (halt s) := rfl

theorem frame_halt {w : Writes} (s : State) (h : w.run = true) : Frame w s (halt s) := frame_run s h _

/-- Settles O14: the instruction completes with the state it was given. -/
theorem nopOnlyAdvancesPc : Obligations.NopOnlyAdvancesPc := by
  refine ⟨exec_nop, fun s hf => ?_⟩
  obtain ⟨hstep, hrun, hframe⟩ := step_of_completes hf (encodes_none .nop rfl) (exec_nop _) (frame_refl { } _) rfl
  exact ⟨_, hstep, boundsCheck_pc _, hrun, hframe⟩

/-- Settles O15: the bounds check does not look at a halted core (`boundsCheck_of_not_running`). -/
theorem hltHalts : Obligations.HltHalts := by
  refine ⟨fun s => ⟨halt s, exec_hlt s, halt_run s, frame_halt s rfl⟩, fun s hf => ?_⟩
  have hcheck : boundsCheck (halt (s.setPc (s.pc + 1))) = halt (s.setPc (s.pc + 1)) := boundsCheck_of_not_running nofun
  have hstep : step s = .next (boundsCheck (halt (s.setPc (s.pc + 1)))) := step_of_fetches hf (encodes_none .hlt rfl)
  rw [hcheck] at hstep
  exact ⟨_, hstep, rfl, halt_run _, (frame_setPc s rfl _).trans (frame_halt _ rfl)⟩

/-! ### The compares (R92, R93, R131) -/

theorem exec_cmprr (a b : Reg) (s : State) : exec (.cmprr a b) s = compare (s.reg a) (s.reg b) s := rfl

theorem exec_cmpri (a : Reg) (v : Word) (s : State) : exec (.cmpri a v) s = compare (s.reg a) v s := rfl

/-- Bit 15 of a word says whether its number is in the upper half. -/
theorem getLsbD_fifteen (r : Word) : r.getLsbD 15 = decide (32768 ≤ r.toNat) := BitVec.msb_eq_decide r

/-- The flags of a subtraction in terms of its operands as numbers (43_arithmetic.md R131). -/
theorem flagsSub_sub (p : FlagBits) (a b : Word) :
    flagsSub p a b (a - b) = flagByte p (decide (a = b)) (decide (a.toNat < b.toNat))
      (decide (32768 ≤ (a.toNat + 65536 - b.toNat) % 65536)) := by
  have hzero : (a - b == 0) = decide (a = b) := decide_eq_decide.2 sub_eq_zero
  have hdiff : (a - b).toNat = (a.toNat + 65536 - b.toNat) % 65536 := by bv_omega
  rw [flagsSub, hzero, getLsbD_fifteen, hdiff]
  rfl

/-- An instruction that is a compare of `a` with `b` writes the flags of their subtraction alone. -/
theorem compares_of_exec {i : Instr} {s : State} {a b : Word} (hi : exec i s = compare a b s)
    (hp : s.cfg.flagBits.wellFormed) :
    Compares i s (decide (a = b)) (decide (a.toNat < b.toNat))
      (decide (32768 ≤ (a.toNat + 65536 - b.toNat) % 65536)) :=
  ⟨_, by rw [hi, compare, flagsSub_sub], flagsAre_setFlags hp _ _ _, frame_setFlags s rfl _⟩

/-- Settles O16: both forms are compares. -/
theorem comparesWriteOnlyTheFlags : Obligations.ComparesWriteOnlyTheFlags := fun s a b n v hp =>
  ⟨⟨encodes_regReg .cmprr rfl a b, compares_of_exec (exec_cmprr a b s) hp⟩,
    ⟨encodes_regImm .cmpri rfl a n v, compares_of_exec (exec_cmpri a v s) hp⟩⟩

/-! ### The jumps (R94 to R98) -/

section
variable (v : Word) (s : State)

/-- A jump writes PC alone: with its target or with the PC that it found. -/
theorem jumpIf_eq (taken : Bool) : jumpIf taken v s = .next (s.setPc (if taken then v else s.pc)) := by
  cases taken <;> rfl

theorem exec_jmp : exec (.jmp v) s = jumpIf true v s := rfl
theorem exec_jmz : exec (.jmz v) s = jumpIf s.flagZ v s := rfl
theorem exec_jnz : exec (.jnz v) s = jumpIf (!s.flagZ) v s := rfl
theorem exec_jmc : exec (.jmc v) s = jumpIf s.flagC v s := rfl
theorem exec_jms : exec (.jms v) s = jumpIf s.flagS v s := rfl

end

/-- Settles O17, by one argument for the five jumps: the condition of each is the same at every PC, so the step's jump
from the fall-through address is the jump from `s`. -/
theorem jumpsGoToTheirTarget : Obligations.JumpsGoToTheirTarget := by
  intro s v Jumps
  have jumps {op : Byte} {i : Instr} {taken : Bool} (he : Encodes [op, lowByte v, highByte v] i)
      (hi : ∀ pc, exec i (s.setPc pc) = jumpIf taken v (s.setPc pc)) : Jumps op i taken := by
    refine ⟨⟨_, (hi s.pc).trans (jumpIf_eq v s taken), setPc_pc s _, frame_setPc s rfl _⟩, fun hf => ?_⟩
    obtain ⟨hstep, hrun, hframe⟩ := step_of_completes (w := { pc := true }) hf he ((hi _).trans (jumpIf_eq v _ taken))
      (frame_setPc _ rfl _) rfl
    exact ⟨_, hstep, boundsCheck_pc _, by rw [hrun, boundsCheck_pc], hframe⟩
  exact ⟨jumps (encodes_imm .jmp rfl v) fun _ => exec_jmp v _, jumps (encodes_imm .jmz rfl v) fun _ => exec_jmz v _,
    jumps (encodes_imm .jnz rfl v) fun _ => exec_jnz v _, jumps (encodes_imm .jmc rfl v) fun _ => exec_jmc v _,
    jumps (encodes_imm .jms rfl v) fun _ => exec_jms v _⟩

/-! ### CALL and RET (R99, R100) -/

section
variable {s : State} (v : Word)

/-- The low byte of a pushed value stands at the SP before the push (R49). -/
theorem readByte_pushed_low (s : State) : (pushed v s).readByte s.sp = lowByte v := by
  rw [readByte_pushed, if_neg (sp_ne_sub_one s.sp), if_pos rfl]

/-- The high byte of a pushed value stands below it (R49). -/
theorem readByte_pushed_high (s : State) : (pushed v s).readByte (s.sp - 1) = highByte v := by
  rw [readByte_pushed, if_pos rfl]

/-- A CALL within the stack's bounds completes. -/
theorem exec_call_done (h : 0x4000 < s.sp.toNat) (h' : s.sp.toNat ≤ 0xDEFF) :
    exec (.call v) s = .next ((pushed s.pc s).setPc v) := by
  rw [exec_call, push16_done _ h h', finish_done]

/-- A CALL that left the core RUNNING was one within the stack's bounds: the other two cases of its push fault. -/
theorem exec_call_running {t : State} (hn : exec (.call v) s = .next t) (ht : t.run = .running) :
    0x4000 < s.sp.toNat ∧ s.sp.toNat ≤ 0xDEFF ∧ t = (pushed s.pc s).setPc v := by
  rw [exec_call] at hn
  rcases push16_cases s.pc s with ⟨-, h⟩ | ⟨-, h⟩ | ⟨hlo, hhi, h⟩ <;> rw [h] at hn <;> cases hn
  · cases ht
  · cases ht
  · exact ⟨hlo, hhi, rfl⟩

/-- A CALL writes PC, SP and its two stack bytes alone. -/
theorem frame_called (s : State) :
    Frame { pc := true, sp := true, bytes := [s.sp, s.sp - 1] } s ((pushed s.pc s).setPc v) :=
  (frame_pushed s rfl (by simp) (by simp) _).trans (frame_setPc _ rfl _)

/-- A RET from a stack that is not empty completes. -/
theorem exec_ret_done (h : s.sp.toNat < 0xDEFF) :
    exec .ret s =
      .next ((s.setSp (s.sp + 2)).setPc (joinBytes (s.readByte (s.sp + 1)) (s.readByte (s.sp + 2)))) := by
  rw [exec_ret, pop16_done h, finish_done]

/-- A RET writes SP and PC alone. -/
theorem frame_returned (s : State) (sp pc : Word) : Frame { pc := true, sp := true } s ((s.setSp sp).setPc pc) :=
  (frame_setSp s rfl _).trans (frame_setPc _ rfl _)

end

/-- Settles O18: the push puts the PC that the CALL found on the stack, which in a step is the fall-through address. -/
theorem callPushesTheReturnAddress : Obligations.CallPushesTheReturnAddress := by
  intro s v hlo hhi
  refine ⟨⟨_, exec_call_done v hlo hhi, rfl, rfl, readByte_pushed_low _ s, readByte_pushed_high _ s, frame_called v s⟩,
    fun hf => ?_⟩
  have hx := exec_call_done (s := s.setPc (s.pc + 3)) v hlo hhi
  obtain ⟨hstep, hrun, hframe⟩ := step_of_completes hf (encodes_imm .call rfl v) hx (frame_called v _) rfl
  exact ⟨_, hstep, boundsCheck_pc _, boundsCheck_sp _, (readByte_boundsCheck _ _).trans (readByte_pushed_low _ _),
    (readByte_boundsCheck _ _).trans (readByte_pushed_high _ _), hrun, hframe⟩

/-- Settles O19: the pop does not look at PC, so a step's RET goes where the RET from `s` goes. -/
theorem retPopsThePc : Obligations.RetPopsThePc := by
  intro s h
  refine ⟨⟨_, exec_ret_done h, rfl, rfl, frame_returned s _ _⟩, fun hf => ?_⟩
  have hx := exec_ret_done (s := s.setPc (s.pc + 1)) h
  obtain ⟨hstep, hrun, hframe⟩ := step_of_completes hf (encodes_none .ret rfl) hx (frame_returned _ _ _) rfl
  exact ⟨_, hstep, boundsCheck_pc _, boundsCheck_sp _, by rw [hrun, boundsCheck_pc], hframe⟩

/-- Settles O37: the bytes above the SP that the CALL left are those of the pushed return address. -/
theorem callThenRetResumesAfterTheCall : Obligations.CallThenRetResumesAfterTheCall := by
  intro s t u v _ hcall ht hsp hlow hhigh
  obtain ⟨hlo, hhi, rfl⟩ := exec_call_running v hcall ht
  rw [setPc_sp, pushed_sp] at hsp
  rw [readByte_setPc, readByte_pushed_low] at hlow
  rw [readByte_setPc, readByte_pushed_high] at hhigh
  have habove : u.sp + 1 = s.sp - 1 := by bv_omega
  have hold : u.sp + 2 = s.sp := by bv_omega
  refine ⟨_, exec_ret_done (by bv_omega), ?_, hold⟩
  rw [setPc_pc, habove, hold, hlow, hhigh, joinBytes_high_low]

end Sys2Proof.Machine

/-! SUPPORT. Data movement (42_data_movement.md). The end of each kind of access in ordinary memory and within the
stack's bounds; then the statements about the instructions, each of which is one access. -/

namespace Sys2Proof.Machine

/-! ### The moves (R110, R111) -/

/-- An instruction that only writes a register sets it and changes nothing else. -/
theorem sets_of_setReg {i : Instr} {s : State} {d : Reg} {v : Word} (hi : exec i s = .next (s.setReg d v)) :
    Sets i s d v.toNat :=
  ⟨s.setReg d v, hi, by rw [reg_setReg_same], frame_setReg s List.mem_cons_self v⟩

theorem exec_movrr (a b : Reg) (s : State) : exec (.movrr a b) s = .next (s.setReg a (s.reg b)) := rfl

theorem exec_movri (a : Reg) (v : Word) (s : State) : exec (.movri a v) s = .next (s.setReg a v) := rfl

/-- Settles O20: both forms write one register. -/
theorem movesSetOnlyTheDestination : Obligations.MovesSetOnlyTheDestination := fun s a b n v =>
  ⟨⟨encodes_regReg .movrr rfl a b, sets_of_setReg (exec_movrr a b s)⟩,
    ⟨encodes_regImm .movri rfl a n v, sets_of_setReg (exec_movri a v s)⟩⟩

/-! ### The stores (R112 to R114, R119 to R122) -/

theorem frame_memWrite_byte {w : Writes} {a : Word} (h : a ∈ w.bytes) (v : Word) (s : State) :
    Frame w s (memWrite a .byte v s) := frame_writeByte s h _

theorem frame_memWrite_word {w : Writes} {a : Word} (h : a ∈ w.bytes) (h' : a + 1 ∈ w.bytes) (v : Word) (s : State) :
    Frame w s (memWrite a .word v s) := (frame_writeByte s h _).trans (frame_writeByte _ h' _)

section
variable {i : Instr} {s : State} {ea v : Operand}

/-- A 16-bit store to ordinary memory writes its two bytes alone (20_memory.md R31, R43). -/
theorem storesWord_of_storeAt (hi : exec i s = storeAt ea .word v s) (hg : 0x4000 ≤ (ea.value s).toNat)
    (ht : ea.value s ≠ 0xFF01) (hl : ea.value s ≠ 0xFFFF) : StoresWord i s (ea.value s) (v.value s) :=
  ⟨memWrite (ea.value s) .word (v.value s) s,
    by rw [hi, storeAt, dataStore_memory _ s hg ht fun _ => hl, finish_done],
    readByte_memWrite_low _ _ s, readByte_memWrite_high _ _ s, frame_memWrite_word (by simp) (by simp) _ s⟩

/-- A byte store to ordinary memory writes its byte alone (20_memory.md R43). -/
theorem storesByte_of_storeAt (hi : exec i s = storeAt ea .byte v s) (hg : 0x4000 ≤ (ea.value s).toNat)
    (ht : ea.value s ≠ 0xFF01) : StoresByte i s (ea.value s) (v.value s) :=
  ⟨memWrite (ea.value s) .byte (v.value s) s,
    by rw [hi, storeAt, dataStore_memory (w := .byte) _ s hg ht nofun, finish_done],
    readByte_writeByte_same s _ _, frame_memWrite_byte List.mem_cons_self _ s⟩

end

/-- Settles O21, form by form: each is a 16-bit `storeAt`. -/
theorem wordStoresWriteTwoBytes : Obligations.WordStoresWriteTwoBytes := fun s a b v =>
  ⟨fun ⟨hg, ht, hl⟩ => storesWord_of_storeAt (exec_stordr a v s) hg ht hl,
    fun ⟨hg, ht, hl⟩ => storesWord_of_storeAt (exec_stormi a v s) hg ht hl,
    fun ⟨hg, ht, hl⟩ => storesWord_of_storeAt (exec_stormr a b s) hg ht hl⟩

/-- Settles O22, form by form: each is a byte `storeAt`. -/
theorem byteStoresWriteOneByte : Obligations.ByteStoresWriteOneByte := fun s a b v =>
  ⟨fun ⟨hg, ht⟩ => storesByte_of_storeAt (exec_storbdr a v s) hg ht,
    fun ⟨hg, ht⟩ => storesByte_of_storeAt (exec_storbmi a v s) hg ht,
    fun ⟨hg, ht⟩ => storesByte_of_storeAt (exec_storbmr a b s) hg ht⟩

/-! ### The loads (R115, R116, R123, R124) -/

/-- What a 16-bit read gives, as a number: the lower address holds the low byte (20_memory.md R31). -/
theorem toNat_memRead_word (a : Word) (s : State) :
    (memRead a .word s).toNat = 256 * (s.readByte (a + 1)).toNat + (s.readByte a).toNat := by
  rw [memRead_word, toNat_joinBytes]

/-- What a byte read gives, as a number. -/
theorem toNat_memRead_byte (a : Word) (s : State) : (memRead a .byte s).toNat = (s.readByte a).toNat := by
  rw [memRead_byte, toNat_zext16]

/-- Settles O27: a 16-bit load away from RX and the last address sets its destination to what is read there. -/
theorem wordLoadsReadTwoBytes : Obligations.WordLoadsReadTwoBytes := by
  intro s a b v Loads
  have loads {i : Instr} {ea : Operand} (hi : exec i s = loadInto a ea .word s) : Loads i (ea.value s) :=
    fun hr hl => toNat_memRead_word (ea.value s) s ▸ sets_of_loadInto hi hr fun _ => hl
  exact ⟨loads (exec_loadrd a v s), loads (exec_loadrm a b s)⟩

/-- Settles O28: a byte load away from RX sets its destination to what is read there. -/
theorem byteLoadsZeroExtend : Obligations.ByteLoadsZeroExtend := by
  intro s a b v
  have loads {i : Instr} {ea : Operand} (hi : exec i s = loadInto a ea .byte s) (hr : ea.value s ≠ 0xFF00) :
      Sets i s a (s.readByte (ea.value s)).toNat :=
    toNat_memRead_byte (ea.value s) s ▸ sets_of_loadInto hi hr nofun
  exact ⟨loads (exec_loadbrd a v s), loads (exec_loadbrm a b s)⟩

/-! ### PUSHR and POPR (R117, R118) -/

/-- A POPR from a stack that is not empty completes. -/
theorem exec_popr_done (a : Reg) {s : State} (h : s.sp.toNat < 0xDEFF) :
    exec (.popr a) s =
      .next ((s.setSp (s.sp + 2)).setReg a (joinBytes (s.readByte (s.sp + 1)) (s.readByte (s.sp + 2)))) := by
  rw [exec_popr, pop16_done h, finish_done]

/-- Settles O32: the bytes of the state after a push (`pushed`). -/
theorem pushWritesTwoBytesBelowSp : Obligations.PushWritesTwoBytesBelowSp := fun s a hlo hhi =>
  ⟨_, exec_pushr_done a hlo hhi, pushed_sp _ s, readByte_pushed_low _ s, readByte_pushed_high _ s,
    frame_pushed s rfl (by simp) (by simp) _⟩

/-- Settles O33: the register takes the joined bytes above SP. -/
theorem popReadsTwoBytesAboveSp : Obligations.PopReadsTwoBytesAboveSp := fun s a h =>
  ⟨_, exec_popr_done a h, by rw [reg_setReg_same, toNat_joinBytes], rfl,
    (frame_setSp s rfl _).trans (frame_setReg _ List.mem_cons_self _)⟩

/-- A register written with its own value leaves the state as it was. -/
theorem setReg_reg (s : State) (r : Reg) : s.setReg r (s.reg r) = s := by
  have hx : s.x.set r s.x[r] = s.x := Vector.set_getElem_self r.isLt
  rw [State.setReg, State.reg, hx]

/-- A pop right after a push gives the pushed value and the old SP back (R49). -/
theorem pop16_pushed (v : Word) {s : State} (hlo : 0x4000 < s.sp.toNat) (hhi : s.sp.toNat ≤ 0xDEFF) :
    pop16 (pushed v s) = .done v ((pushed v s).setSp s.sp) := by
  have habove : s.sp - 2 + 1 = s.sp - 1 := by bv_omega
  have hold : s.sp - 2 + 2 = s.sp := by bv_omega
  rw [pop16_done (by rw [pushed_sp]; bv_omega), pushed_sp, habove, hold, readByte_pushed_high, readByte_pushed_low,
    joinBytes_high_low]

/-- What is left of a push once SP is put back: its two bytes. -/
theorem frame_pushed_setSp (v : Word) (s : State) :
    Frame { bytes := [s.sp, s.sp - 1] } s ((pushed v s).setSp s.sp) :=
  (frame_writeByte s (by simp) _).trans (frame_writeByte _ (by simp) _)

/-- Settles O36: the pop gives back the pushed register's own value (`setReg_reg`), and SP returns to where it was. -/
theorem pushThenPopIsAnIdentity : Obligations.PushThenPopIsAnIdentity := by
  intro s a hlo hhi
  have hpop : exec (.popr a) (pushed (s.reg a) s) = .next ((pushed (s.reg a) s).setSp s.sp) := by
    rw [exec_popr, pop16_pushed _ hlo hhi, finish_done]
    exact congrArg _ (setReg_reg ((pushed (s.reg a) s).setSp s.sp) a)
  exact ⟨_, _, exec_pushr_done a hlo hhi, hpop, frame_pushed_setSp _ s⟩

end Sys2Proof.Machine

/-! SUPPORT. Arithmetic (43_arithmetic.md). What each instruction of the group is of the shared operations, and the end
of an instruction that writes a word and its flags; from both the results and flags as numbers. -/

namespace Sys2Proof.Machine

/-! ### The operation of an instruction (R133 to R142) -/

section
variable (a b : Reg) (v : Word) (s : State)

theorem exec_addrr : exec (.addrr a b) s = addTo a (s.reg b) s := rfl
theorem exec_addri : exec (.addri a v) s = addTo a v s := rfl
theorem exec_subrr : exec (.subrr a b) s = subFrom a (s.reg b) s := rfl
theorem exec_subri : exec (.subri a v) s = subFrom a v s := rfl
theorem exec_mulrr : exec (.mulrr a b) s = mulBy a (s.reg b) s := rfl
theorem exec_mulri : exec (.mulri a v) s = mulBy a v s := rfl
theorem exec_divrr : exec (.divrr a b) s = divBy a (s.reg b) s := rfl
theorem exec_divri : exec (.divri a v) s = divBy a v s := rfl
theorem exec_incr : exec (.incr a) s = addTo a 1 s := rfl
theorem exec_decr : exec (.decr a) s = subFrom a 1 s := rfl

end

/-! ### Results and flags as numbers (R129 to R131) -/

/-- The flag byte of a result: Z and S in terms of the result as a number (R129). -/
theorem flagByte_of_result (p : FlagBits) (r : Word) (c : Bool) :
    flagByte p (r == 0) c (r.getLsbD 15) = flagByte p (decide (r.toNat = 0)) c (decide (32768 ≤ r.toNat)) := by
  have hzero : (r == 0) = decide (r.toNat = 0) := decide_eq_decide.2 (BitVec.toNat_eq (y := 0))
  rw [hzero, getLsbD_fifteen]

/-- The carry of the additive rule in terms of numbers (R130). -/
theorem flagsAdd_eq (p : FlagBits) (a b r : Word) :
    flagsAdd p a b r = flagByte p (r == 0) (decide (r.toNat < a.toNat ∨ r.toNat < b.toNat)) (r.getLsbD 15) := by
  rw [flagsAdd, Bool.decide_or]; rfl

/-- A difference as a number: 65536 is borrowed and given back. -/
theorem toNat_wordSub (a b : Word) : (a - b).toNat = (a.toNat + 65536 - b.toNat) % 65536 := by bv_omega

section
variable {i : Instr} {s t : State} {d : Reg} {b : Word}

/-- An instruction that writes `r` to a register, and its Z and S with a carry to the flags, computes `r`. -/
theorem computes_of_setReg_setFlags {r : Word} {c : Bool} (hp : s.cfg.flagBits.wellFormed)
    (hi : exec i s = .next ((s.setReg d r).setFlags (flagByte s.cfg.flagBits (r == 0) c (r.getLsbD 15)))) :
    Computes i s d r.toNat c := by
  rw [flagByte_of_result] at hi
  exact ⟨_, hi, by rw [reg_setFlags, reg_setReg_same], flagsAre_setFlags (s := s.setReg d r) hp _ _ _,
    (frame_setReg s List.mem_cons_self r).trans (frame_setFlags _ rfl _)⟩

theorem computes_of_addTo (hp : s.cfg.flagBits.wellFormed) (hi : exec i s = addTo d b s) :
    Computes i s d (((s.reg d).toNat + b.toNat) % 65536)
      (decide (((s.reg d).toNat + b.toNat) % 65536 < (s.reg d).toNat ∨
        ((s.reg d).toNat + b.toNat) % 65536 < b.toNat)) := by
  rw [addTo, flagsAdd_eq] at hi
  exact BitVec.toNat_add (s.reg d) b ▸ computes_of_setReg_setFlags hp hi

theorem computes_of_subFrom (hp : s.cfg.flagBits.wellFormed) (hi : exec i s = subFrom d b s) :
    Computes i s d (((s.reg d).toNat + 65536 - b.toNat) % 65536) (decide ((s.reg d).toNat < b.toNat)) :=
  toNat_wordSub (s.reg d) b ▸ computes_of_setReg_setFlags hp hi

theorem computes_of_mulBy (hp : s.cfg.flagBits.wellFormed) (hi : exec i s = mulBy d b s) :
    Computes i s d ((s.reg d).toNat * b.toNat % 65536)
      (decide ((s.reg d).toNat * b.toNat % 65536 < (s.reg d).toNat ∨
        (s.reg d).toNat * b.toNat % 65536 < b.toNat)) := by
  rw [mulBy, flagsAdd_eq] at hi
  exact BitVec.toNat_mul (s.reg d) b ▸ computes_of_setReg_setFlags hp hi

/-- A division by a word other than 0 computes the floor of the quotient, with the free carry (R143). -/
theorem computes_of_divBy (hp : s.cfg.flagBits.wellFormed) (hb : b ≠ 0) (hi : exec i s = divBy d b s) :
    Computes i s d ((s.reg d).toNat / b.toNat)
      (Config.divCarry (s.reg d) b (BitVec.ofNat 16 ((s.reg d).toNat / b.toNat))) := by
  have hq : BitVec.ofNat 16 ((s.reg d).toNat / b.toNat) = s.reg d / b := (BitVec.udiv_def).symm
  rw [divBy, if_neg hb] at hi
  rw [hq]
  exact BitVec.toNat_udiv (x := s.reg d) (y := b) ▸ computes_of_setReg_setFlags hp hi

/-- A division by 0 raises ArithmeticFault and does nothing else (60_exceptions.md R176, R184). -/
theorem faults_of_divBy_zero (hb : b = 0) (hi : exec i s = divBy d b s) : Faults i s .arithmetic :=
  ⟨raise .arithmetic s, hi.trans (if_pos hb), raise_run s _, frame_raise s rfl _⟩

end

/-- Settles O40: both forms are `addTo`. -/
theorem addWritesTheWrappedSum : Obligations.AddWritesTheWrappedSum := fun s a b n v hp =>
  ⟨⟨encodes_regReg .addrr rfl a b, computes_of_addTo hp (exec_addrr a b s)⟩,
    ⟨encodes_regImm .addri rfl a n v, computes_of_addTo hp (exec_addri a v s)⟩⟩

/-- Settles O41: both forms are `subFrom`. -/
theorem subWritesTheWrappedDifference : Obligations.SubWritesTheWrappedDifference := fun s a b n v hp =>
  ⟨⟨encodes_regReg .subrr rfl a b, computes_of_subFrom hp (exec_subrr a b s)⟩,
    ⟨encodes_regImm .subri rfl a n v, computes_of_subFrom hp (exec_subri a v s)⟩⟩

/-- Settles O42: both forms are `mulBy`. -/
theorem mulWritesTheLowProduct : Obligations.MulWritesTheLowProduct := fun s a b n v hp =>
  ⟨⟨encodes_regReg .mulrr rfl a b, computes_of_mulBy hp (exec_mulrr a b s)⟩,
    ⟨encodes_regImm .mulri rfl a n v, computes_of_mulBy hp (exec_mulri a v s)⟩⟩

/-- Settles O43: both forms are `divBy`, which decides by the divisor. -/
theorem divWritesTheQuotientOrFaults : Obligations.DivWritesTheQuotientOrFaults := fun s a b v hp =>
  ⟨⟨fun hb => computes_of_divBy hp hb (exec_divrr a b s), fun hb => faults_of_divBy_zero hb (exec_divrr a b s)⟩,
    ⟨fun hv => computes_of_divBy hp hv (exec_divri a v s), fun hv => faults_of_divBy_zero hv (exec_divri a v s)⟩⟩

/-- Settles O44: INCR is `addTo` and DECR is `subFrom`, of the word 1. -/
theorem incrAndDecrAreByTheLiteralOne : Obligations.IncrAndDecrAreByTheLiteralOne := by
  intro s a n hp
  have hone : (1 : Word).toNat = 1 := rfl
  have hdecr := computes_of_subFrom hp (exec_decr a s)
  rw [hone, Nat.add_sub_assoc (by decide)] at hdecr
  exact ⟨⟨encodes_reg .incr rfl a n, computes_of_addTo hp (exec_incr a s)⟩, ⟨encodes_reg .decr rfl a n, hdecr⟩⟩

/-! ### What the carry and Z mean (R130, R131) -/

section
variable {i : Instr} {s t : State} {d : Reg} {a b : Word}

/-- The flags of the state that a computation ends in. -/
theorem Computes.flagsAre {r : Nat} {c : Bool} (h : Computes i s d r c) (hn : exec i s = .next t) :
    FlagsAre t (decide (r = 0)) c (decide (32768 ≤ r)) := by
  obtain ⟨u, hu, -, hflags, -⟩ := h
  obtain rfl := Host.Outcome.next.inj (hu.symm.trans hn)
  exact hflags

/-- The flags of the state that a compare ends in. -/
theorem Compares.flagsAre {z c g : Bool} (h : Compares i s z c g) (hn : exec i s = .next t) : FlagsAre t z c g := by
  obtain ⟨u, hu, hflags, -⟩ := h
  obtain rfl := Host.Outcome.next.inj (hu.symm.trans hn)
  exact hflags

/-- A wrapped sum is below an operand exactly where the sum of the numbers did not fit. -/
theorem flagC_addTo_iff (hp : s.cfg.flagBits.wellFormed) (hi : exec i s = addTo d b s) (hn : exec i s = .next t) :
    t.flagC = true ↔ 65536 ≤ (s.reg d).toNat + b.toNat := by
  obtain ⟨-, hc, -⟩ := (computes_of_addTo hp hi).flagsAre hn
  have hd := (s.reg d).isLt
  have hb := b.isLt
  rw [hc, decide_eq_true_iff]
  omega

/-- A difference borrows where the minuend is the smaller number, and is 0 where the numbers are equal. -/
theorem flags_subFrom_iff (hp : s.cfg.flagBits.wellFormed) (hi : exec i s = subFrom d b s) (hn : exec i s = .next t) :
    (t.flagC = true ↔ (s.reg d).toNat < b.toNat) ∧ (t.flagZ = true ↔ (s.reg d).toNat = b.toNat) := by
  obtain ⟨hz, hc, -⟩ := (computes_of_subFrom hp hi).flagsAre hn
  have hd := (s.reg d).isLt
  have hb := b.isLt
  rw [hz, hc, decide_eq_true_iff, decide_eq_true_iff]
  exact ⟨Iff.rfl, by omega⟩

/-- The flags of a compare, likewise (41_control_flow.md R92, R93). -/
theorem flags_compare_iff (hp : s.cfg.flagBits.wellFormed) (hi : exec i s = compare a b s) (hn : exec i s = .next t) :
    (t.flagC = true ↔ a.toNat < b.toNat) ∧ (t.flagZ = true ↔ a.toNat = b.toNat) := by
  obtain ⟨hz, hc, -⟩ := (compares_of_exec hi hp).flagsAre hn
  rw [hz, hc, decide_eq_true_iff, decide_eq_true_iff]
  exact ⟨Iff.rfl, BitVec.toNat_eq⟩

end

/-- Settles O45, form by form by its operation; INCR and DECR are the forms whose operand is the word 1. -/
theorem carryAndZeroMeanOverflowBorrowEquality : Obligations.CarryAndZeroMeanOverflowBorrowEquality := by
  intro s t a b v hp
  refine ⟨⟨flagC_addTo_iff hp (exec_addrr a b s), flagC_addTo_iff hp (exec_addri a v s)⟩,
    ⟨flags_subFrom_iff hp (exec_subrr a b s), flags_subFrom_iff hp (exec_subri a v s)⟩,
    ⟨flags_compare_iff hp (exec_cmprr a b s), flags_compare_iff hp (exec_cmpri a v s)⟩, fun hn => ?_, fun hn => ?_⟩
  · have hcarry : t.flagC = true ↔ 65536 ≤ (s.reg a).toNat + 1 := flagC_addTo_iff hp (exec_incr a s) hn
    have hlt := (s.reg a).isLt
    rw [hcarry]
    omega
  · have hborrow : t.flagC = true ↔ (s.reg a).toNat < 1 := (flags_subFrom_iff hp (exec_decr a s) hn).1
    rw [hborrow, Nat.lt_one_iff]

end Sys2Proof.Machine

/-! SUPPORT. Bitwise (44_bitwise.md). Each instruction of the group writes one register and does nothing else; from
that the written word bit by bit, or as a number. -/

namespace Sys2Proof.Machine

/-! ### The word an instruction writes (R151 to R159) -/

section
variable (a b : Reg) (v : Word) (s : State)

theorem exec_andrr : exec (.andrr a b) s = .next (s.setReg a (s.reg a &&& s.reg b)) := rfl
theorem exec_andri : exec (.andri a v) s = .next (s.setReg a (s.reg a &&& v)) := rfl
theorem exec_orrr : exec (.orrr a b) s = .next (s.setReg a (s.reg a ||| s.reg b)) := rfl
theorem exec_orri : exec (.orri a v) s = .next (s.setReg a (s.reg a ||| v)) := rfl
theorem exec_xorrr : exec (.xorrr a b) s = .next (s.setReg a (s.reg a ^^^ s.reg b)) := rfl
theorem exec_xorri : exec (.xorri a v) s = .next (s.setReg a (s.reg a ^^^ v)) := rfl
theorem exec_not : exec (.not a) s = .next (s.setReg a (~~~ s.reg a)) := rfl
theorem exec_shr : exec (.shr a) s = .next (s.setReg a (s.reg a >>> 1)) := rfl
theorem exec_shl : exec (.shl a) s = .next (s.setReg a (s.reg a <<< 1)) := rfl

end

/-! ### AND, OR and XOR (R151 to R156) -/

section
variable {i : Instr} {s : State} {d : Reg} {x y : Word}

/-- An instruction that only writes a register gives it the bits of the written word and changes nothing else. -/
theorem setsBits_of_setReg {v : Word} {f : Fin 16 → Bool} (hi : exec i s = .next (s.setReg d v))
    (hf : ∀ k : Fin 16, v.getLsbD k = f k) : SetsBits i s d f :=
  ⟨s.setReg d v, hi, fun k => by rw [reg_setReg_same, hf], frame_setReg s List.mem_cons_self v⟩

theorem setsBits_of_and (hi : exec i s = .next (s.setReg d (x &&& y))) :
    SetsBits i s d (fun k => x.getLsbD k && y.getLsbD k) :=
  setsBits_of_setReg hi fun _ => BitVec.getLsbD_and

theorem setsBits_of_or (hi : exec i s = .next (s.setReg d (x ||| y))) :
    SetsBits i s d (fun k => x.getLsbD k || y.getLsbD k) :=
  setsBits_of_setReg hi fun _ => BitVec.getLsbD_or

theorem setsBits_of_xor (hi : exec i s = .next (s.setReg d (x ^^^ y))) :
    SetsBits i s d (fun k => x.getLsbD k ^^ y.getLsbD k) :=
  setsBits_of_setReg hi fun _ => BitVec.getLsbD_xor

end

/-- Settles O46, form by form: each writes the conjunction, the disjunction or the exclusive disjunction of two words. -/
theorem andOrXorWorkBitByBit : Obligations.AndOrXorWorkBitByBit := fun s a b n v =>
  ⟨⟨encodes_regReg .andrr rfl a b, setsBits_of_and (exec_andrr a b s)⟩,
    ⟨encodes_regImm .andri rfl a n v, setsBits_of_and (exec_andri a v s)⟩,
    ⟨encodes_regReg .orrr rfl a b, setsBits_of_or (exec_orrr a b s)⟩,
    ⟨encodes_regImm .orri rfl a n v, setsBits_of_or (exec_orri a v s)⟩,
    ⟨encodes_regReg .xorrr rfl a b, setsBits_of_xor (exec_xorrr a b s)⟩,
    ⟨encodes_regImm .xorri rfl a n v, setsBits_of_xor (exec_xorri a v s)⟩⟩

/-! ### NOT and the shifts (R157 to R159) -/

section
variable (x : Word)

theorem toNat_shiftRight_one : (x >>> 1).toNat = x.toNat / 2 := by
  rw [BitVec.toNat_ushiftRight, Nat.shiftRight_eq_div_pow, pow_one]

theorem toNat_shiftLeft_one : (x <<< 1).toNat = x.toNat * 2 % 65536 := by
  rw [BitVec.toNat_shiftLeft, Nat.shiftLeft_eq, pow_one]

end

/-- Settles O47: each writes one register (`sets_of_setReg`), with the word that has this number. -/
theorem notAndShiftsWriteOnlyTheRegister : Obligations.NotAndShiftsWriteOnlyTheRegister := fun s a n =>
  ⟨⟨encodes_reg .not rfl a n, BitVec.toNat_not (x := s.reg a) ▸ sets_of_setReg (exec_not a s)⟩,
    ⟨encodes_reg .shr rfl a n, toNat_shiftRight_one (s.reg a) ▸ sets_of_setReg (exec_shr a s)⟩,
    ⟨encodes_reg .shl rfl a n, toNat_shiftLeft_one (s.reg a) ▸ sets_of_setReg (exec_shl a s)⟩⟩

end Sys2Proof.Machine

/-! SUPPORT. The exceptions (60_exceptions.md): the illegal opcodes, what a fault leaves as it was, which fault an
instruction can raise, and the two statuses besides FAULTED: halted, and waiting for the console. -/

namespace Sys2Proof.Machine

/-! ### DecodeFault (R69, R171) -/

/-- A DecodeFault moves PC past the opcode byte, says so in the run status, and writes nothing else (R184). -/
theorem frame_decodeFault (s : State) : Frame { pc := true, run := true } s (decodeFault s) :=
  (frame_setPc s rfl _).trans (frame_raise _ rfl _)

/-- The default table has no entry for a byte that is the default opcode of no mnemonic (R69, D1). -/
theorem mnemonicOf_defaultOpcodes_eq_none_iff (b : Byte) :
    defaultOpcodes.mnemonicOf b = none ↔ b ∉ Mnemonic.all.map defaultOpcode := by
  simp only [OpcodeMap.mnemonicOf, List.find?_eq_none, byteOf_defaultOpcodes, beq_iff_eq, List.mem_map, not_exists,
    not_and]

/-- The 44 default opcodes leave four gaps among the 256 bytes (R68). -/
theorem not_mem_defaultOpcodes_iff : ∀ b : Byte, b ∉ Mnemonic.all.map defaultOpcode ↔
    (0x0B ≤ b.toNat ∧ b.toNat ≤ 0x0F) ∨ (0x1E ≤ b.toNat ∧ b.toNat ≤ 0x1F) ∨
    (0x2A ≤ b.toNat ∧ b.toNat ≤ 0x2F) ∨ 0x39 ≤ b.toNat := by decide

/-- Settles O6: of the cases of a step, only the DecodeFault has an opcode byte without a table entry. -/
theorem illegalOpcodeRaisesDecodeFault : Obligations.IllegalOpcodeRaisesDecodeFault := by
  refine ⟨fun s hr hp hm => ?_, fun b =>
    (mnemonicOf_defaultOpcodes_eq_none_iff b).trans (not_mem_defaultOpcodes_iff b)⟩
  obtain ⟨hout, -⟩ | ⟨-, -, hstep⟩ | ⟨i, -, -, hi, -⟩ := step_cases hr
  · omega
  · exact ⟨decodeFault s, hstep, rfl, rfl, frame_decodeFault s⟩
  · rw [hm] at hi; cases hi

/-! ### HALTED (R187) -/

/-- The bounds check halts no core. -/
theorem halted_of_boundsCheck {u : State} (h : (boundsCheck u).run = .halted) : u.run = .halted := by
  unfold boundsCheck at h
  split at h
  · cases h
  · exact h

/-- From a RUNNING state only HLT halts. -/
theorem eq_hlt_of_halted {i : Instr} {s t : State} (hr : s.run = .running) (hn : exec i s = .next t)
    (ht : t.run = .halted) : i = .hlt := by
  obtain hkept | ⟨hi, -⟩ | ⟨r, rfl⟩ := exec_run hn
  · rw [hkept, hr] at ht; cases ht
  · exact hi
  · cases ht

/-- Settles O11: the faults of the run loop do not halt, and the instruction that halted is HLT (`eq_hlt_of_halted`). -/
theorem onlyHltHalts : Obligations.OnlyHltHalts := by
  refine ⟨fun s t h ht => ?_, fun s hh t h => ?_⟩
  · obtain ⟨hr, ⟨-, rfl⟩ | ⟨-, rfl⟩ | ⟨i, u, -, hm, hx, rfl⟩⟩ := step_next_cases h
    · cases ht
    · cases ht
    · obtain rfl := eq_hlt_of_halted (s := advance i s) hr hx (halted_of_boundsCheck ht)
      exact decode_of_mnemonicOf (f := { }) hm rfl
  · obtain ⟨hr, -⟩ := step_next_cases h
    rw [hh] at hr; cases hr

/-! ### What a fault of the Executor leaves as it was (R183, R184) -/

/-- Settles O12: an instruction that ends FAULTED has raised the fault and done nothing else (`exec_run`). -/
theorem executorFaultChangesOnlyTheStatus : Obligations.ExecutorFaultChangesOnlyTheStatus := by
  intro i s t r hr hn ht
  obtain hkept | ⟨-, rfl⟩ | ⟨r', rfl⟩ := exec_run hn
  · rw [hkept, hr] at ht; cases ht
  · cases ht
  · exact frame_raise s rfl r'

/-! ### The faults of each instruction (R182) -/

/-- The 16-bit stores, and the byte stores. -/
def storesOf : Width → List Mnemonic
  | .word => [.stordr, .stormi, .stormr]
  | .byte => [.storbdr, .storbmi, .storbmr]

/-- The table of R182: the faults that `i` can raise in the Executor, with what each records. -/
inductive CanRaise (i : Instr) (s : State) : FaultReason → Prop where
  | writeProtect (ea : Word) (hi : i.mnemonic ∈ storesOf .word ++ storesOf .byte) : CanRaise i s (.writeProtect ea)
  | address (hi : i.mnemonic ∈ storesOf .word ++ [.loadrd, .loadrm]) : CanRaise i s (.address 0xFFFF)
  | io (v : Word) (hi : i.mnemonic ∈ storesOf .word) : CanRaise i s (.io 0xFF01 v)
  | overflow (hi : i.mnemonic ∈ [.call, .pushr]) : CanRaise i s (.stack .overflow s.sp)
  | guard (hi : i.mnemonic ∈ [.call, .pushr]) : CanRaise i s (.stack .guard s.sp)
  | underflow (hi : i.mnemonic ∈ [.ret, .popr]) : CanRaise i s (.stack .underflow s.sp)
  | arithmetic (hi : i.mnemonic ∈ [.divrr, .divri]) : CanRaise i s .arithmetic

/-- The run status that `i` executed from `s` can leave. -/
inductive EndStatus (i : Instr) (s : State) : State → Prop where
  | kept (t : State) (h : t.run = s.run) : EndStatus i s t
  | halted (t : State) (h : t.run = .halted) : EndStatus i s t
  | raised (r : FaultReason) (h : CanRaise i s r) : EndStatus i s (raise r s)

section
variable {i : Instr} {s t : State}

theorem endStatus_storeAt {ea v : Operand} {w : Width} (hn : storeAt ea w v s = .next t)
    (hi : i.mnemonic ∈ storesOf w) : EndStatus i s t := by
  unfold storeAt at hn
  rcases dataStore_cases (ea.value s) w (v.value s) s with
    ⟨-, h⟩ | ⟨ha, rfl, -, -, h⟩ | ⟨-, -, h⟩ | ⟨rfl, ha, h⟩ | ⟨-, -, -, h⟩ <;> rw [h] at hn <;> cases hn
  · refine .raised _ (.writeProtect _ (List.mem_append.2 ?_))
    cases w with
    | word => exact .inl hi
    | byte => exact .inr hi
  · rw [ha]; exact .raised _ (.io _ hi)
  · exact .kept _ rfl
  · rw [ha]; exact .raised _ (.address (List.mem_append_left _ hi))
  · exact .kept _ (by rw [memWrite_eq])

theorem endStatus_loadInto {d : Reg} {ea : Operand} {w : Width} (hn : loadInto d ea w s = .next t)
    (hi : w = .word → i.mnemonic ∈ [.loadrd, .loadrm]) : EndStatus i s t := by
  unfold loadInto at hn
  rcases dataLoad_cases (ea.value s) w s with
    ⟨b, -, -, h⟩ | ⟨v, -, -, -, h⟩ | ⟨-, -, -, h⟩ | ⟨hw, ha, h⟩ | ⟨-, -, h⟩ <;> rw [h] at hn <;> cases hn
  · exact .kept _ rfl
  · exact .kept _ rfl
  · rw [ha]; exact .raised _ (.address (List.mem_append_right _ (hi hw)))
  · exact .kept _ rfl

theorem endStatus_push {v : Word} {k : State → State} (hk : ∀ u, (k u).run = u.run)
    (hn : (push16 v s).finish s (fun _ u => k u) = .next t) (hi : i.mnemonic ∈ [.call, .pushr]) : EndStatus i s t := by
  rcases push16_cases v s with ⟨-, h⟩ | ⟨-, h⟩ | ⟨-, -, h⟩ <;> rw [h] at hn <;> cases hn
  · exact .raised _ (.guard hi)
  · exact .raised _ (.overflow hi)
  · exact .kept _ (hk _)

theorem endStatus_pop {k : Word → State → State} (hk : ∀ v u, (k v u).run = u.run)
    (hn : (pop16 s).finish s k = .next t) (hi : i.mnemonic ∈ [.ret, .popr]) : EndStatus i s t := by
  rcases pop16_cases s with ⟨-, h⟩ | ⟨-, h⟩ <;> rw [h] at hn <;> cases hn
  · exact .raised _ (.underflow hi)
  · exact .kept _ (hk _ _)

theorem endStatus_divBy {d : Reg} {b : Word} (hn : divBy d b s = .next t) (hi : i.mnemonic ∈ [.divrr, .divri]) :
    EndStatus i s t := by
  unfold divBy at hn
  split at hn <;> cases hn
  · exact .raised _ (.arithmetic hi)
  · exact .kept _ rfl

theorem endStatus_jumpIf {taken : Bool} {v : Word} (hn : jumpIf taken v s = .next t) : EndStatus i s t := by
  cases taken <;> cases hn
  · exact .kept _ rfl
  · exact .kept _ rfl

/-- Every instruction leaves the run status alone, or halts, or raises a fault of its row in the table (R182). -/
theorem exec_endStatus (hn : exec i s = .next t) : EndStatus i s t := by
  cases i with
  | stordr | stormi | stormr | storbdr | storbmi | storbmr =>
    exact endStatus_storeAt hn (by simp [Instr.mnemonic, storesOf])
  | loadrd | loadrm => exact endStatus_loadInto hn fun _ => by simp [Instr.mnemonic]
  | loadbrd | loadbrm => exact endStatus_loadInto hn nofun
  | pushr a => exact endStatus_push (k := fun u => u) (fun _ => rfl) hn (by simp [Instr.mnemonic])
  | call v => exact endStatus_push (k := fun u => u.setPc v) (fun _ => rfl) hn (by simp [Instr.mnemonic])
  | popr a => exact endStatus_pop (k := fun v u => u.setReg a v) (fun _ _ => rfl) hn (by simp [Instr.mnemonic])
  | ret => exact endStatus_pop (k := fun v u => u.setPc v) (fun _ _ => rfl) hn (by simp [Instr.mnemonic])
  | divrr | divri => exact endStatus_divBy hn (by simp [Instr.mnemonic])
  | jmp | jmz | jnz | jmc | jms => exact endStatus_jumpIf hn
  | hlt => cases hn; exact .halted _ rfl
  | nop | cmprr | cmpri | movrr | movri | addrr | addri | subrr | subri | mulrr | mulri | incr | decr
  | andrr | andri | orrr | orri | xorrr | xorri | not | shr | shl => cases hn; exact .kept _ rfl

/-- The fault that an instruction left behind is one of its row in the table. -/
theorem exec_canRaise {r : FaultReason} (hr : s.run = .running) (hn : exec i s = .next t) (ht : t.run = .faulted r) :
    CanRaise i s r := by
  cases exec_endStatus hn with
  | kept _ h => rw [h, hr] at ht; cases ht
  | halted _ h => rw [h] at ht; cases ht
  | raised _ h => cases ht; exact h

end

/-- Settles O13, row by row of `CanRaise`. -/
theorem faultsAreThoseOfTheTable : Obligations.FaultsAreThoseOfTheTable := by
  intro i s t r hr hn ht
  cases exec_canRaise hr hn ht with
  | writeProtect ea hi => exact .inl ⟨⟨ea, rfl⟩, hi⟩
  | address hi => exact .inr (.inl ⟨rfl, hi⟩)
  | io v hi => exact .inr (.inr (.inl ⟨⟨v, rfl⟩, hi⟩))
  | overflow hi => exact .inr (.inr (.inr (.inl ⟨.inl rfl, hi⟩)))
  | guard hi => exact .inr (.inr (.inr (.inl ⟨.inr rfl, hi⟩)))
  | underflow hi => exact .inr (.inr (.inr (.inr (.inl ⟨rfl, hi⟩))))
  | arithmetic hi => exact .inr (.inr (.inr (.inr (.inr ⟨rfl, hi⟩))))

/-! ### WriteProtectFault (R173) -/

/-- A store whose EA is below the RAM boundary raises WriteProtectFault, whatever its width and its value. -/
theorem faults_of_storeAt_guard {i : Instr} {s : State} {ea v : Operand} {w : Width} (hi : exec i s = storeAt ea w v s)
    (h : (ea.value s).toNat < 0x4000) : Faults i s (.writeProtect (ea.value s)) :=
  faults_of_storeAt hi (dataStore_guard w _ s h)

/-- What has raised WriteProtectFault is a store. -/
theorem mem_stores_of_writeProtect {i : Instr} {s t : State} {ea : Word} (hr : s.run = .running)
    (hn : exec i s = .next t) (ht : t.run = .faulted (.writeProtect ea)) :
    i.mnemonic ∈ storesOf .word ++ storesOf .byte := by
  cases exec_canRaise hr hn ht with
  | writeProtect _ hi => exact hi

/-- Settles O25: each store by its EA, and the table has no WriteProtectFault for PUSHR and CALL. -/
theorem storesBelowRamRaiseWriteProtectFault : Obligations.StoresBelowRamRaiseWriteProtectFault := by
  refine ⟨fun s a b v => ⟨fun hv => ?_, fun ha => ?_⟩, fun s t a v ea hr hn ht => ?_⟩
  · exact ⟨faults_of_storeAt_guard (exec_stordr a v s) hv, faults_of_storeAt_guard (exec_storbdr a v s) hv⟩
  · exact ⟨faults_of_storeAt_guard (exec_stormi a v s) ha, faults_of_storeAt_guard (exec_stormr a b s) ha,
      faults_of_storeAt_guard (exec_storbmi a v s) ha, faults_of_storeAt_guard (exec_storbmr a b s) ha⟩
  · rcases hn with hn | hn <;>
      exact absurd (mem_stores_of_writeProtect hr hn ht) (by simp [Instr.mnemonic, storesOf])

/-! ### The wait for the console (R193) -/

/-- Delivered to an exhausted console, a byte is the next one to be read. -/
theorem consoleIn_deliverInput {s : State} (h : s.inPos = s.consoleIn.length) (b : Byte) (bytes : List Byte) :
    (deliverInput (b :: bytes) s).consoleIn[(deliverInput (b :: bytes) s).inPos]? = some b := by
  simp [h]

/-- Settles O31: the blocked instruction is a load of RX, is still one after the delivery, and then finds the byte. -/
theorem deliveredInputWakesABlockedLoad : Obligations.DeliveredInputWakesABlockedLoad := by
  intro s i b bytes hblocked hin
  obtain ⟨-, ⟨d, c, hi⟩, hnone, -⟩ := exec_fault hblocked
  have hload : LoadsRxInto i (deliverInput (b :: bytes) s) d := ⟨c, hi⟩
  have hend : s.inPos = s.consoleIn.length := le_antisymm hin (List.getElem?_eq_none_iff.1 hnone)
  exact ⟨d, c, hi.imp_right fun h => h.imp_right And.right, hload.readsConsole (consoleIn_deliverInput hend b bytes)⟩

end Sys2Proof.Machine

/-! SUPPORT. Reset and the Loader (70_reset_and_hazards.md R200, R201): the Loader's answer by the length of the image,
and what the reset state and the loaded state read as. -/

namespace Sys2Proof.Machine

/-- An image that fits is written from address 0 on. -/
theorem loadImage_of_fits {image : List Byte} (h : image.length ≤ 65536) (s : State) :
    loadImage image s = some { s with mem := Memory.writeBytes s.mem 0 image } := if_pos h

/-- An image longer than the address space is rejected (D19). -/
theorem loadImage_of_tooLong {image : List Byte} (h : 65536 < image.length) (s : State) : loadImage image s = none :=
  if_neg (Nat.not_le.2 h)

@[simp] theorem reg_reset (r : Reg) : State.reset.reg r = 0 := by simp [State.reset, State.reg]

/-- The memory of the reset state is all 0x00 (10_state.md R22). -/
@[simp] theorem readByte_reset (a : Word) : State.reset.readByte a = 0 := rfl

/-- After loading, an address within the image reads as the image's byte, any other as before. -/
theorem readByte_loadImage {image : List Byte} {s t : State} (h : loadImage image s = some t) (a : Word) :
    t.readByte a = (image[a.toNat]?).getD (s.readByte a) := by
  obtain ⟨-, rfl⟩ := loadImage_some h
  simp [State.readByte, Memory.read_writeBytes]

/-- Settles O58: the Loader leaves all but the memory as reset has it, and the memory reads as the image over 0x00; the
length of the image decides between the two clauses. -/
theorem resetStateIsTheLoadedImage : Obligations.ResetStateIsTheLoadedImage := by
  refine fun image => ⟨fun hfits => ?_, fun hlong => loadImage_of_tooLong hlong State.reset⟩
  have hload := loadImage_of_fits hfits State.reset
  exact ⟨_, hload, reg_reset, rfl, rfl, rfl, rfl, rfl, rfl, fun a => by rw [readByte_loadImage hload, readByte_reset]⟩

end Sys2Proof.Machine
